-- ==== Sys2Proof/Word.lean ====
section
/-! DEFINITION. The word and field types of the block (spec 00_scope.md R9, R12). -/

namespace Sys2Proof

/-- `u32`: an instruction word or an address (R9). -/
abbrev Word := BitVec 32

/-- One byte of an input image (used by the byte-image wrapper only, R41). -/
abbrev Byte := BitVec 8

/-- A 5-bit register-number field (R9). It names a register of the decoded instruction set; the block has none (R23). -/
abbrev RegNum := BitVec 5

/-- A 6-bit opcode or function code (R9). -/
abbrev Code := BitVec 6

/-- A character string (R12). -/
abbrev Text := List Char

/-- `SENTINEL` (R10, R31): the input word that ends the input without being decoded. -/
def sentinel : Word := 0xFFFFFFFF#32

end Sys2Proof
end

