-- ==== Sys2Proof/Syntax.lean ====
section
/-! DEFINITION. The decoded instruction (spec 00_scope.md R14): the mnemonics of each shape, the record of each shape,
the tagged sum of R14 (`Instruction`), and `Instr` with one constructor per row of opcode_table.json.
The two views are in bijection (`Instr.form`, `Instruction.instr`; log 11). -/

namespace Sys2Proof

/-- The RegisterForm mnemonics (R14). -/
inductive RMnem
  | add | addu | and | mul | slt | sub | sll | sra | jr | jalr | syscall | nop
  deriving DecidableEq, Repr

/-- The ImmediateForm mnemonics (R14). -/
inductive IMnem
  | addi | addiu | andi | ori | lui | lb | lw | sb | sw | beq | bne | blez | bgtz | bltz | bgez
  deriving DecidableEq, Repr

/-- The JumpForm mnemonics (R14). -/
inductive JMnem
  | j | jal
  deriving DecidableEq, Repr

/-- Any of the 29 mnemonics, tagged by its shape. -/
inductive Mnem
  | r (m : RMnem)
  | i (m : IMnem)
  | j (m : JMnem)
  deriving DecidableEq, Repr

/-- The fields of a RegisterForm record (R14, R64); `raw` is the original word. -/
structure RegisterFields where
  sourceReg   : RegNum
  targetReg   : RegNum
  destReg     : RegNum
  shiftAmount : BitVec 5
  raw         : Word
  deriving DecidableEq, Repr

/-- The fields of an ImmediateForm record (R14, R64). -/
structure ImmediateFields where
  sourceReg : RegNum
  targetReg : RegNum
  immediate : BitVec 16
  raw       : Word
  deriving DecidableEq, Repr

/-- The fields of a JumpForm record (R14, R64). -/
structure JumpFields where
  targetAddress : BitVec 26
  raw           : Word
  deriving DecidableEq, Repr

/-- The tagged sum of R14: a shape, a mnemonic of that shape, and the shape's fields. -/
inductive Instruction
  | registerForm  (mnem : RMnem) (fields : RegisterFields)
  | immediateForm (mnem : IMnem) (fields : ImmediateFields)
  | jumpForm      (mnem : JMnem) (fields : JumpFields)
  deriving DecidableEq, Repr

/-- One constructor per row of opcode_table.json, carrying the record of its shape. -/
inductive Instr
  | add     (f : RegisterFields)
  | addu    (f : RegisterFields)
  | and     (f : RegisterFields)
  | mul     (f : RegisterFields)
  | slt     (f : RegisterFields)
  | sub     (f : RegisterFields)
  | sll     (f : RegisterFields)
  | sra     (f : RegisterFields)
  | jr      (f : RegisterFields)
  | jalr    (f : RegisterFields)
  | syscall (f : RegisterFields)
  | nop     (f : RegisterFields)
  | addi    (f : ImmediateFields)
  | addiu   (f : ImmediateFields)
  | andi    (f : ImmediateFields)
  | ori     (f : ImmediateFields)
  | lui     (f : ImmediateFields)
  | lb      (f : ImmediateFields)
  | lw      (f : ImmediateFields)
  | sb      (f : ImmediateFields)
  | sw      (f : ImmediateFields)
  | beq     (f : ImmediateFields)
  | bne     (f : ImmediateFields)
  | blez    (f : ImmediateFields)
  | bgtz    (f : ImmediateFields)
  | bltz    (f : ImmediateFields)
  | bgez    (f : ImmediateFields)
  | j       (f : JumpFields)
  | jal     (f : JumpFields)
  deriving DecidableEq, Repr

/-- The RegisterForm instruction with a given mnemonic. -/
def Instr.ofRegister : RMnem → RegisterFields → Instr
  | .add, f => .add f
  | .addu, f => .addu f
  | .and, f => .and f
  | .mul, f => .mul f
  | .slt, f => .slt f
  | .sub, f => .sub f
  | .sll, f => .sll f
  | .sra, f => .sra f
  | .jr, f => .jr f
  | .jalr, f => .jalr f
  | .syscall, f => .syscall f
  | .nop, f => .nop f

/-- The ImmediateForm instruction with a given mnemonic. -/
def Instr.ofImmediate : IMnem → ImmediateFields → Instr
  | .addi, f => .addi f
  | .addiu, f => .addiu f
  | .andi, f => .andi f
  | .ori, f => .ori f
  | .lui, f => .lui f
  | .lb, f => .lb f
  | .lw, f => .lw f
  | .sb, f => .sb f
  | .sw, f => .sw f
  | .beq, f => .beq f
  | .bne, f => .bne f
  | .blez, f => .blez f
  | .bgtz, f => .bgtz f
  | .bltz, f => .bltz f
  | .bgez, f => .bgez f

/-- The JumpForm instruction with a given mnemonic. -/
def Instr.ofJump : JMnem → JumpFields → Instr
  | .j, f => .j f
  | .jal, f => .jal f

/-- The instruction of an R14 record. -/
def Instruction.instr : Instruction → Instr
  | .registerForm m f => .ofRegister m f
  | .immediateForm m f => .ofImmediate m f
  | .jumpForm m f => .ofJump m f

/-- The R14 record of an instruction. -/
def Instr.form : Instr → Instruction
  | .add f => .registerForm .add f
  | .addu f => .registerForm .addu f
  | .and f => .registerForm .and f
  | .mul f => .registerForm .mul f
  | .slt f => .registerForm .slt f
  | .sub f => .registerForm .sub f
  | .sll f => .registerForm .sll f
  | .sra f => .registerForm .sra f
  | .jr f => .registerForm .jr f
  | .jalr f => .registerForm .jalr f
  | .syscall f => .registerForm .syscall f
  | .nop f => .registerForm .nop f
  | .addi f => .immediateForm .addi f
  | .addiu f => .immediateForm .addiu f
  | .andi f => .immediateForm .andi f
  | .ori f => .immediateForm .ori f
  | .lui f => .immediateForm .lui f
  | .lb f => .immediateForm .lb f
  | .lw f => .immediateForm .lw f
  | .sb f => .immediateForm .sb f
  | .sw f => .immediateForm .sw f
  | .beq f => .immediateForm .beq f
  | .bne f => .immediateForm .bne f
  | .blez f => .immediateForm .blez f
  | .bgtz f => .immediateForm .bgtz f
  | .bltz f => .immediateForm .bltz f
  | .bgez f => .immediateForm .bgez f
  | .j f => .jumpForm .j f
  | .jal f => .jumpForm .jal f

/-- The mnemonic of an R14 record. -/
def Instruction.mnem : Instruction → Mnem
  | .registerForm m _ => .r m
  | .immediateForm m _ => .i m
  | .jumpForm m _ => .j m

/-- The original word an R14 record keeps. -/
def Instruction.raw : Instruction → Word
  | .registerForm _ f => f.raw
  | .immediateForm _ f => f.raw
  | .jumpForm _ f => f.raw

/-- The mnemonic of an instruction. -/
def Instr.mnem (ins : Instr) : Mnem := ins.form.mnem

/-- The original word of an instruction. -/
def Instr.raw (ins : Instr) : Word := ins.form.raw

end Sys2Proof
end

