-- ==== Sys2Proof/Config.lean ====
section
/-! DEFINITION. The configuration record (spec 00_scope.md R10, 10_state.md R26): what the source leaves to the
implementation. It is constant for a run. The default instance stands in Decode.lean. -/

namespace Sys2Proof

/-- What a primary opcode may select (30_encoding.md R70, R72): an ImmediateForm or JumpForm mnemonic, or `mul`. -/
inductive OpcodeMnem
  | imm  (m : IMnem)
  | jump (m : JMnem)
  | mul
  deriving DecidableEq, Repr

/-- `ON_ERROR` (R10, 10_state.md R32): what the environment does after a decode error. -/
inductive ErrorPolicy
  | abort
  | skip
  deriving DecidableEq, Repr

/-- `WORD_BYTE_ORDER` (20_memory.md R41, D20): OPEN in the spec, so it is never stored and always an argument (log 12). -/
inductive ByteOrder
  | big
  | little
  deriving DecidableEq, Repr

/-- The configuration record of R10. The two maps are partial maps from 6-bit codes (R72, R73), as lists of entries. -/
structure Config where
  opcodeMap : List (Code × OpcodeMnem)
  functMap  : List (Code × RMnem)
  functMul  : Code
  base      : Word
  onError   : ErrorPolicy
  eol       : Text
  deriving DecidableEq, Repr

/-- What a primary opcode selects: the partial map `OpcodeMap` (R72). -/
def Config.opcodeEntry (cfg : Config) (op : Code) : Option OpcodeMnem := cfg.opcodeMap.lookup op

/-- What a function code selects under opcode 0: the partial map `FunctMap` (R73). -/
def Config.functEntry (cfg : Config) (fn : Code) : Option RMnem := cfg.functMap.lookup fn

end Sys2Proof
end

