-- ==== Sys2Proof/Machine/Text.lean ====
section
/-! DEFINITION. The text primitives of FMT: `dec` and `hex8` (spec 00_scope.md R12) and the spelling of each mnemonic
(30_encoding.md R91). -/

namespace Sys2Proof.Machine

/-- The decimal digits of `n`, most significant first, with `fuel` digits to spend. -/
def decDigits : Nat → Nat → Text
  | 0, _ => []
  | fuel + 1, n => if n < 10 then [Nat.digitChar n] else decDigits fuel (n / 10) ++ [Nat.digitChar (n % 10)]

/-- `dec(v)` (R12, D9): unsigned decimal, no leading zeros, `0` for zero. -/
def dec (v : Nat) : Text := decDigits (v + 1) v

/-- The lowercase hexadecimal digit of bits `4k+3..4k` of a word. -/
def hexDigit (v : Word) (k : Nat) : Char := Nat.digitChar (v.extractLsb' (4 * k) 4).toNat

/-- `hex8(v)` (R12, D10): `0x` and exactly eight lowercase hexadecimal digits. -/
def hex8 (v : Word) : Text := '0' :: 'x' :: [7, 6, 5, 4, 3, 2, 1, 0].map (hexDigit v)

/-- R91 for the RegisterForm mnemonics. -/
def spellR : RMnem → Text
  | .add => "add".toList
  | .addu => "addu".toList
  | .and => "and".toList
  | .mul => "mul".toList
  | .slt => "slt".toList
  | .sub => "sub".toList
  | .sll => "sll".toList
  | .sra => "sra".toList
  | .jr => "jr".toList
  | .jalr => "jalr".toList
  | .syscall => "syscall".toList
  | .nop => "nop".toList

/-- R91 for the ImmediateForm mnemonics. -/
def spellI : IMnem → Text
  | .addi => "addi".toList
  | .addiu => "addiu".toList
  | .andi => "andi".toList
  | .ori => "ori".toList
  | .lui => "lui".toList
  | .lb => "lb".toList
  | .lw => "lw".toList
  | .sb => "sb".toList
  | .sw => "sw".toList
  | .beq => "beq".toList
  | .bne => "bne".toList
  | .blez => "blez".toList
  | .bgtz => "bgtz".toList
  | .bltz => "bltz".toList
  | .bgez => "bgez".toList

/-- R91 for the JumpForm mnemonics. -/
def spellJ : JMnem → Text
  | .j => "j".toList
  | .jal => "jal".toList

/-- `spell(m)` (R91). -/
def spell : Mnem → Text
  | .r m => spellR m
  | .i m => spellI m
  | .j m => spellJ m

end Sys2Proof.Machine
end

