-- ==== Sys2Proof/Machine/Operands.lean ====
section
/-! DEFINITION. The operand forms of FMT: the eleven rows of the class table of spec 30_encoding.md R93, the register
spelling of 10_state.md R23 and the ×4 scaling of 30_encoding.md R66. -/

namespace Sys2Proof.Machine

/-- `$n` (10_state.md R23): never an alias name. -/
def registerText (n : RegNum) : Text := '$' :: dec n.toNat

/-- R66: the immediate times 4, computed in u32 and unsigned (R65). -/
def scaledImmediate (imm : BitVec 16) : Word := imm.setWidth 32 * 4

/-- R66: the jump target times 4, computed in u32. The upper address bits are not merged in (45_jump.md R240). -/
def scaledTarget (t : BitVec 26) : Word := t.setWidth 32 * 4

/-- Standard register op: `$rd, $rs, $rt`. -/
def standardRegisterOps (f : RegisterFields) : List Text :=
  [registerText f.destReg, registerText f.sourceReg, registerText f.targetReg]

/-- Shift: `$rd, $rt, shamt`. -/
def shiftOps (f : RegisterFields) : List Text :=
  [registerText f.destReg, registerText f.targetReg, dec f.shiftAmount.toNat]

/-- Jump-register: `$rs`. -/
def jumpRegisterOps (f : RegisterFields) : List Text := [registerText f.sourceReg]

/-- Jump-and-link-register: `$rd, $rs`. -/
def jumpLinkRegisterOps (f : RegisterFields) : List Text := [registerText f.destReg, registerText f.sourceReg]

/-- No operands. -/
def noOps : List Text := []

/-- Immediate arithmetic/logical: `$rt, $rs, imm`. -/
def immediateOps (f : ImmediateFields) : List Text :=
  [registerText f.targetReg, registerText f.sourceReg, dec f.immediate.toNat]

/-- Load-upper-immediate: `$rt, imm`. -/
def loadUpperOps (f : ImmediateFields) : List Text := [registerText f.targetReg, dec f.immediate.toNat]

/-- Load/store: `$rt, imm×4($rs)` (43_load_store.md R190). -/
def loadStoreOps (f : ImmediateFields) : List Text :=
  [registerText f.targetReg, dec (scaledImmediate f.immediate).toNat ++ "(".toList ++ registerText f.sourceReg ++ ")".toList]

/-- Two-register branch: `$rs, $rt, imm×4` (44_branch.md R210). -/
def twoRegisterBranchOps (f : ImmediateFields) : List Text :=
  [registerText f.sourceReg, registerText f.targetReg, dec (scaledImmediate f.immediate).toNat]

/-- One-register branch: `$rs, imm×4` (44_branch.md R210). -/
def oneRegisterBranchOps (f : ImmediateFields) : List Text :=
  [registerText f.sourceReg, dec (scaledImmediate f.immediate).toNat]

/-- Jump: the scaled target in hexadecimal (45_jump.md R240). -/
def jumpOps (f : JumpFields) : List Text := [hex8 (scaledTarget f.targetAddress)]

end Sys2Proof.Machine
end

