-- ==== Sys2Proof/Machine/Format.lean ====
section
/-! DEFINITION. FMT (spec 30_encoding.md R90 to R95): the line template, and the formatter as one function of the R14
record, chosen by shape and mnemonic (R93). The meanings print through the same template and operand forms. -/

namespace Sys2Proof.Machine

/-- R90: nothing when there is no operand (D11), else a space and the operands joined by `", "`. -/
def operandsText : List Text → Text
  | [] => []
  | op :: ops => ' ' :: List.intercalate ", ".toList (op :: ops)

/-- R90: the line template. -/
def lineText (cfg : Config) (a raw : Word) (m : Mnem) (ops : List Text) : Text :=
  "[".toList ++ hex8 a ++ "] ".toList ++ hex8 raw ++ " ".toList ++ spell m ++ operandsText ops ++ cfg.eol

/-- R93 for the RegisterForm mnemonics. -/
def registerOperands (f : RegisterFields) : RMnem → List Text
  | .add | .addu | .and | .mul | .slt | .sub => standardRegisterOps f
  | .sll | .sra => shiftOps f
  | .jr => jumpRegisterOps f
  | .jalr => jumpLinkRegisterOps f
  | .nop | .syscall => noOps

/-- R93 for the ImmediateForm mnemonics. -/
def immediateOperands (f : ImmediateFields) : IMnem → List Text
  | .addi | .addiu | .andi | .ori => immediateOps f
  | .lui => loadUpperOps f
  | .lb | .lw | .sb | .sw => loadStoreOps f
  | .beq | .bne => twoRegisterBranchOps f
  | .bgtz | .blez | .bgez | .bltz => oneRegisterBranchOps f

/-- R93 for the JumpForm mnemonics. -/
def jumpOperands (f : JumpFields) : JMnem → List Text
  | .j | .jal => jumpOps f

/-- `ops(ins)` (R93), total, so that no decoder/formatter mismatch can occur (R94). -/
def operandsOf : Instruction → List Text
  | .registerForm m f => registerOperands f m
  | .immediateForm m f => immediateOperands f m
  | .jumpForm m f => jumpOperands f m

/-- `format(cfg, a, ins)` (R90). -/
def format (cfg : Config) (a : Word) (ins : Instruction) : Text :=
  lineText cfg a ins.raw ins.mnem (operandsOf ins)

end Sys2Proof.Machine
end

