-- ==== Sys2Proof/WellFormed.lean ====
section
/-! DEFINITION. Well-formed configurations (spec 30_encoding.md R77, one Bool per clause) and well-formed instructions
under a configuration (the records DEC can build: 30_encoding.md R63, R64, R70). Slices are written `extractLsb' lo width`
(00_scope.md R11), not with the decoder's own extraction function. -/

namespace Sys2Proof

/-- R77 (b): the mnemonics the range of `OpcodeMap` is exactly. -/
def opcodeRange : List OpcodeMnem :=
  [.jump .j, .jump .jal, .imm .beq, .imm .bne, .imm .blez, .imm .bgtz, .imm .addi, .imm .addiu, .imm .andi, .imm .ori,
   .imm .lui, .imm .lb, .imm .lw, .imm .sb, .imm .sw, .mul]

/-- R77 (c): the mnemonics the range of `FunctMap` is exactly. -/
def functRange : List RMnem :=
  [.sll, .sra, .jr, .jalr, .syscall, .add, .addu, .sub, .and, .slt]

/-- The two lists are maps: no code is listed twice (log 14). -/
def Config.keysOk (cfg : Config) : Bool :=
  decide (cfg.opcodeMap.map Prod.fst).Nodup && decide (cfg.functMap.map Prod.fst).Nodup

/-- R77 (a): `OpcodeMap` is injective and its domain lies in 2..63. -/
def Config.opcodeDomainOk (cfg : Config) : Bool :=
  decide (cfg.opcodeMap.map Prod.snd).Nodup && cfg.opcodeMap.all fun e => decide (2 ≤ e.1.toNat)

/-- R77 (b): the range of `OpcodeMap` is exactly `opcodeRange`, and opcode 8 selects `addiu`. -/
def Config.opcodeRangeOk (cfg : Config) : Bool :=
  (cfg.opcodeMap.all fun e => decide (e.2 ∈ opcodeRange)) &&
  (opcodeRange.all fun m => decide (m ∈ cfg.opcodeMap.map Prod.snd)) &&
  decide (cfg.opcodeEntry 8 = some (.imm .addiu))

/-- R77 (c): `FunctMap` is injective and its range is exactly `functRange`. -/
def Config.functMapOk (cfg : Config) : Bool :=
  decide (cfg.functMap.map Prod.snd).Nodup &&
  (cfg.functMap.all fun e => decide (e.2 ∈ functRange)) &&
  (functRange.all fun m => decide (m ∈ cfg.functMap.map Prod.snd))

/-- R77 (d): `FUNCT_MUL` is not in the domain of `FunctMap`. -/
def Config.functMulOk (cfg : Config) : Bool := decide (cfg.functEntry cfg.functMul = none)

/-- R77 (e): function code 0 selects `sll`. -/
def Config.sllOk (cfg : Config) : Bool := decide (cfg.functEntry 0 = some .sll)

/-- R77: a configuration the model accepts. -/
def Config.wf (cfg : Config) : Bool :=
  cfg.keysOk && cfg.opcodeDomainOk && cfg.opcodeRangeOk && cfg.functMapOk && cfg.functMulOk && cfg.sllOk

/-- The fields of a RegisterForm record are the slices of its raw word (R63, R64). -/
def RegisterFields.consistent (f : RegisterFields) : Bool :=
  f.sourceReg == f.raw.extractLsb' 21 5 && f.targetReg == f.raw.extractLsb' 16 5 &&
  f.destReg == f.raw.extractLsb' 11 5 && f.shiftAmount == f.raw.extractLsb' 6 5

/-- The fields of an ImmediateForm record are the slices of its raw word (R63, R64). -/
def ImmediateFields.consistent (f : ImmediateFields) : Bool :=
  f.sourceReg == f.raw.extractLsb' 21 5 && f.targetReg == f.raw.extractLsb' 16 5 && f.immediate == f.raw.extractLsb' 0 16

/-- The field of a JumpForm record is the slice of its raw word (R63, R64). -/
def JumpFields.consistent (f : JumpFields) : Bool := f.targetAddress == f.raw.extractLsb' 0 26

/-- The record's word has opcode 0 and a function code that selects `m` (R70, R73). -/
def RegisterFields.byFunct (cfg : Config) (m : RMnem) (f : RegisterFields) : Bool :=
  f.consistent && f.raw.extractLsb' 26 6 == 0 && f.raw.extractLsb' 0 6 != cfg.functMul &&
  cfg.functEntry (f.raw.extractLsb' 0 6) == some m

/-- The word's opcode is neither 0 nor 1 and selects `m` (R70, R72). -/
def byOpcode (cfg : Config) (m : OpcodeMnem) (w : Word) : Bool :=
  w.extractLsb' 26 6 != 0 && w.extractLsb' 26 6 != 1 && cfg.opcodeEntry (w.extractLsb' 26 6) == some m

/-- The instruction is one DEC can build under `cfg`: its fields are its word's, its word selects its mnemonic. -/
def Instr.wf (cfg : Config) : Instr → Bool
  | .add f => f.byFunct cfg .add
  | .addu f => f.byFunct cfg .addu
  | .and f => f.byFunct cfg .and
  | .mul f => f.consistent && byOpcode cfg .mul f.raw
  | .slt f => f.byFunct cfg .slt
  | .sub f => f.byFunct cfg .sub
  | .sll f => f.byFunct cfg .sll && f.raw != 0
  | .sra f => f.byFunct cfg .sra
  | .jr f => f.byFunct cfg .jr
  | .jalr f => f.byFunct cfg .jalr
  | .syscall f => f.byFunct cfg .syscall
  | .nop f => f.byFunct cfg .sll && f.raw == 0
  | .addi f => f.consistent && byOpcode cfg (.imm .addi) f.raw
  | .addiu f => f.consistent && byOpcode cfg (.imm .addiu) f.raw
  | .andi f => f.consistent && byOpcode cfg (.imm .andi) f.raw
  | .ori f => f.consistent && byOpcode cfg (.imm .ori) f.raw
  | .lui f => f.consistent && byOpcode cfg (.imm .lui) f.raw
  | .lb f => f.consistent && byOpcode cfg (.imm .lb) f.raw
  | .lw f => f.consistent && byOpcode cfg (.imm .lw) f.raw
  | .sb f => f.consistent && byOpcode cfg (.imm .sb) f.raw
  | .sw f => f.consistent && byOpcode cfg (.imm .sw) f.raw
  | .beq f => f.consistent && byOpcode cfg (.imm .beq) f.raw
  | .bne f => f.consistent && byOpcode cfg (.imm .bne) f.raw
  | .blez f => f.consistent && byOpcode cfg (.imm .blez) f.raw
  | .bgtz f => f.consistent && byOpcode cfg (.imm .bgtz) f.raw
  | .bltz f => f.consistent && f.raw.extractLsb' 26 6 == 1 && f.targetReg == 0
  | .bgez f => f.consistent && f.raw.extractLsb' 26 6 == 1 && f.targetReg != 0
  | .j f => f.consistent && byOpcode cfg (.jump .j) f.raw
  | .jal f => f.consistent && byOpcode cfg (.jump .jal) f.raw

end Sys2Proof
end

