-- ==== Sys2Proof/Decode.lean ====
section
/-! DEFINITION. BFX and DEC (spec 30_encoding.md R60 to R84), the default configuration (R72, R73, R76; 00_scope.md R10),
the byte-image wrapper (20_memory.md R41), and after them the encoder, written from the format tables of R63. -/

namespace Sys2Proof

/-! ### BFX -/

/-- R60: the `width`-bit unsigned value of `word` starting `offset` bits above bit 0. The proof argument is R61's
precondition: no out-of-range call can be written. -/
def extract (word : Word) (width offset : Nat) (_h : width + offset ≤ 32) : Word :=
  BitVec.ofNat 32 ((word.toNat >>> offset) &&& ((1 <<< width) - 1))

/-- The eight calls DEC makes (R61), each narrowed to its field's type. -/
def opcodeOf (w : Word) : Code := (extract w 6 26 (by decide)).setWidth 6
/-- R61: the function code, `extract(w, 6, 0)`. -/
def functOf (w : Word) : Code := (extract w 6 0 (by decide)).setWidth 6
/-- R61: `extract(w, 5, 21)`. -/
def sourceRegOf (w : Word) : RegNum := (extract w 5 21 (by decide)).setWidth 5
/-- R61: `extract(w, 5, 16)`. -/
def targetRegOf (w : Word) : RegNum := (extract w 5 16 (by decide)).setWidth 5
/-- R61: `extract(w, 5, 11)`. -/
def destRegOf (w : Word) : RegNum := (extract w 5 11 (by decide)).setWidth 5
/-- R61: `extract(w, 5, 6)`. -/
def shiftAmountOf (w : Word) : BitVec 5 := (extract w 5 6 (by decide)).setWidth 5
/-- R61: `extract(w, 16, 0)`. -/
def immediateOf (w : Word) : BitVec 16 := (extract w 16 0 (by decide)).setWidth 16
/-- R61: `extract(w, 26, 0)`. -/
def targetAddressOf (w : Word) : BitVec 26 := (extract w 26 0 (by decide)).setWidth 26

/-! ### DEC -/

/-- R64: the RegisterForm fields of a word. -/
def registerFields (w : Word) : RegisterFields :=
  { sourceReg := sourceRegOf w, targetReg := targetRegOf w, destReg := destRegOf w, shiftAmount := shiftAmountOf w, raw := w }

/-- R64: the ImmediateForm fields of a word. -/
def immediateFields (w : Word) : ImmediateFields :=
  { sourceReg := sourceRegOf w, targetReg := targetRegOf w, immediate := immediateOf w, raw := w }

/-- R64: the JumpForm field of a word. -/
def jumpFields (w : Word) : JumpFields := { targetAddress := targetAddressOf w, raw := w }

/-- The three kinds of decode error (60_exceptions.md R260). -/
inductive DecodeErrorKind
  | unrecognizedOpcode
  | unrecognizedFunctionCode
  | invalidMultiplyEncoding
  deriving DecidableEq, Repr

/-- The spec's own ordinal of an error kind (R260, D17). -/
def DecodeErrorKind.ordinal : DecodeErrorKind → Nat
  | .unrecognizedOpcode => 1
  | .unrecognizedFunctionCode => 2
  | .invalidMultiplyEncoding => 3

/-- A decode error carries the full input word and nothing else (R260). -/
structure DecodeError where
  kind : DecodeErrorKind
  word : Word
  deriving DecidableEq, Repr

/-- `DecodeResult := ok Instruction | err DecodeError` (10_state.md R21). -/
inductive DecodeResult
  | ok  (ins : Instr)
  | err (e : DecodeError)
  deriving DecidableEq, Repr

/-- The opcode-0 branch of R70: FUNCT_MUL (R76), then `FunctMap` (R73, R82), then the all-zero word (R74). -/
def decodeByFunct (cfg : Config) (w : Word) : DecodeResult :=
  if functOf w = cfg.functMul then .err { kind := .invalidMultiplyEncoding, word := w }
  else match cfg.functEntry (functOf w) with
    | none => .err { kind := .unrecognizedFunctionCode, word := w }
    | some m => .ok (.ofRegister (if m = .sll ∧ w = 0 then .nop else m) (registerFields w))

/-- The opcode-1 branch of R70: the tie-break of R71. -/
def decodeBranchPair (w : Word) : DecodeResult :=
  .ok (.ofImmediate (if targetRegOf w ≠ 0 then .bgez else .bltz) (immediateFields w))

/-- The last branch of R70: `OpcodeMap` (R72, R75, R81). -/
def decodeByOpcode (cfg : Config) (w : Word) : DecodeResult :=
  match cfg.opcodeEntry (opcodeOf w) with
  | none => .err { kind := .unrecognizedOpcode, word := w }
  | some (.imm m) => .ok (.ofImmediate m (immediateFields w))
  | some (.jump m) => .ok (.ofJump m (jumpFields w))
  | some .mul => .ok (.ofRegister .mul (registerFields w))

/-- R70: `decode(cfg, w)`, total on every word. -/
def decode (cfg : Config) (w : Word) : DecodeResult :=
  if opcodeOf w = 0 then decodeByFunct cfg w
  else if opcodeOf w = 1 then decodeBranchPair w
  else decodeByOpcode cfg w

/-! ### The default configuration -/

/-- R72's default table. Opcode 8 is the source's (§8); the other numbers are the spec's decisions D3 to D5 (log 7). -/
def defaultOpcodeMap : List (Code × OpcodeMnem) :=
  [(0x02, .jump .j), (0x03, .jump .jal), (0x04, .imm .beq), (0x05, .imm .bne), (0x06, .imm .blez), (0x07, .imm .bgtz),
   (0x08, .imm .addiu), (0x09, .imm .addi), (0x0C, .imm .andi), (0x0D, .imm .ori), (0x0F, .imm .lui), (0x1C, .mul),
   (0x20, .imm .lb), (0x23, .imm .lw), (0x28, .imm .sb), (0x2B, .imm .sw)]

/-- R73's default table. Code 0 is forced by R74; the other numbers are the spec's decision D6 (log 7). -/
def defaultFunctMap : List (Code × RMnem) :=
  [(0x00, .sll), (0x03, .sra), (0x08, .jr), (0x09, .jalr), (0x0C, .syscall), (0x20, .add), (0x21, .addu), (0x22, .sub),
   (0x24, .and), (0x2A, .slt)]

/-- R10's defaults: FUNCT_MUL 0x02 (D7), BASE 0x00400000 (D13), ON_ERROR abort (D15), EOL LF (D12). -/
def Config.default : Config :=
  { opcodeMap := defaultOpcodeMap, functMap := defaultFunctMap, functMul := 0x02, base := 0x00400000, onError := .abort,
    eol := ['\n'] }

/-! ### The byte-image wrapper (20_memory.md R41, log 12) -/

/-- The word stored in four bytes, the first at the lowest address, in the byte order the caller gives. -/
def wordOfBytes (order : ByteOrder) (b0 b1 b2 b3 : Byte) : Word :=
  match order with
  | .big => b0 ++ b1 ++ b2 ++ b3
  | .little => b3 ++ b2 ++ b1 ++ b0

/-- The words of a byte image, or how many bytes stand after its last whole word. -/
inductive ImageResult
  | words (ws : List Word)
  | leftover (count : Nat)
  deriving DecidableEq, Repr

/-- Put one word before the words of an image that reads. -/
def ImageResult.cons (w : Word) : ImageResult → ImageResult
  | .words ws => .words (w :: ws)
  | .leftover n => .leftover n

/-- Read a byte image as words; an image that is no whole number of words is rejected by name. -/
def wordsOfImage (order : ByteOrder) : List Byte → ImageResult
  | [] => .words []
  | b0 :: b1 :: b2 :: b3 :: rest => (wordsOfImage order rest).cons (wordOfBytes order b0 b1 b2 b3)
  | [_] => .leftover 1
  | [_, _] => .leftover 2
  | [_, _, _] => .leftover 3

/-! ### The host's decoding entry -/

/-- The 32-bit word of a table row's bits; the bits above `nbits` are 0. The block takes words as values (R41), so no byte
order arises. -/
def tableWord (nbits w : Nat) : Word := BitVec.ofNat 32 (w % 2 ^ nbits)

/-- What `decode` reads, under the default configuration, from the instruction whose bits are `w`. -/
def decodeTableWord (nbits w : Nat) : Option Instr :=
  match decode Config.default (tableWord nbits w) with
  | .ok ins => some ins
  | .err _ => none

/-! ### The encoder (log 10): the words of R63's formats -/

/-- The opcode a configuration gives an opcode-dispatched mnemonic (R72 read backwards). -/
def Config.opcodeFor (cfg : Config) (m : OpcodeMnem) : Option Code :=
  (cfg.opcodeMap.find? fun e => e.2 == m).map Prod.fst

/-- The function code a configuration gives a function-dispatched mnemonic (R73 read backwards). -/
def Config.functFor (cfg : Config) (m : RMnem) : Option Code :=
  (cfg.functMap.find? fun e => e.2 == m).map Prod.fst

/-- R63's RegisterForm table, from bit 31 down. -/
def encodeRegister (op : Code) (f : RegisterFields) (low : Code) : Word :=
  op ++ f.sourceReg ++ f.targetReg ++ f.destReg ++ f.shiftAmount ++ low

/-- R63's ImmediateForm table, from bit 31 down. -/
def encodeImmediate (op : Code) (f : ImmediateFields) : Word :=
  op ++ f.sourceReg ++ f.targetReg ++ f.immediate

/-- R63's JumpForm table, from bit 31 down. -/
def encodeJump (op : Code) (f : JumpFields) : Word := op ++ f.targetAddress

/-- A function-dispatched word: opcode 0 and the mnemonic's function code. -/
def encodeByFunct (cfg : Config) (m : RMnem) (f : RegisterFields) : Option Word :=
  (cfg.functFor m).map fun fn => encodeRegister 0 f fn

/-- An opcode-dispatched ImmediateForm word. -/
def encodeByOpcode (cfg : Config) (m : IMnem) (f : ImmediateFields) : Option Word :=
  (cfg.opcodeFor (.imm m)).map fun op => encodeImmediate op f

/-- An opcode-dispatched JumpForm word. -/
def encodeJumpByOpcode (cfg : Config) (m : JMnem) (f : JumpFields) : Option Word :=
  (cfg.opcodeFor (.jump m)).map fun op => encodeJump op f

/-- The word of an instruction, or none when the configuration gives its mnemonic no code. The low six bits of a `mul` word
are no field and are don't-care (R75, R80), so they come from its raw word. `nop` is exactly the word 0 (R74). -/
def encode (cfg : Config) : Instr → Option Word
  | .add f => encodeByFunct cfg .add f
  | .addu f => encodeByFunct cfg .addu f
  | .and f => encodeByFunct cfg .and f
  | .mul f => (cfg.opcodeFor .mul).map fun op => encodeRegister op f (f.raw.extractLsb' 0 6)
  | .slt f => encodeByFunct cfg .slt f
  | .sub f => encodeByFunct cfg .sub f
  | .sll f => encodeByFunct cfg .sll f
  | .sra f => encodeByFunct cfg .sra f
  | .jr f => encodeByFunct cfg .jr f
  | .jalr f => encodeByFunct cfg .jalr f
  | .syscall f => encodeByFunct cfg .syscall f
  | .nop _ => some 0
  | .addi f => encodeByOpcode cfg .addi f
  | .addiu f => encodeByOpcode cfg .addiu f
  | .andi f => encodeByOpcode cfg .andi f
  | .ori f => encodeByOpcode cfg .ori f
  | .lui f => encodeByOpcode cfg .lui f
  | .lb f => encodeByOpcode cfg .lb f
  | .lw f => encodeByOpcode cfg .lw f
  | .sb f => encodeByOpcode cfg .sb f
  | .sw f => encodeByOpcode cfg .sw f
  | .beq f => encodeByOpcode cfg .beq f
  | .bne f => encodeByOpcode cfg .bne f
  | .blez f => encodeByOpcode cfg .blez f
  | .bgtz f => encodeByOpcode cfg .bgtz f
  | .bltz f => some (encodeImmediate 1 f)
  | .bgez f => some (encodeImmediate 1 f)
  | .j f => encodeJumpByOpcode cfg .j f
  | .jal f => encodeJumpByOpcode cfg .jal f

end Sys2Proof
end

