-- ==== Sys2Proof/Machine/State.lean ====
section
/-! DEFINITION. The state of the machine (spec 10_state.md R20 to R33), its faults and refusals, and the state at the
start of a run. The block holds no state (R20); these are the environment's fields and the constant configuration. -/

namespace Sys2Proof.Machine

/-- R29: the spec's `state`. -/
inductive RunStatus
  | running
  | stopped
  deriving DecidableEq, Repr

/-- Why the machine stops. -/
inductive Fault
  /-- Raised by the step of a stopped environment: it takes no step (10_state.md R32). A stuck state, no error; safe (log 5). -/
  | stopped
  /-- R268: a mnemonic with no formatting rule. The formatter here is total, so nothing raises it; safe (log 13). -/
  | formatterMismatch
  deriving DecidableEq, Repr

/-- Why the model gives a step no meaning. -/
inductive Refusal
  /-- Raised by an arm of `exec` whose instruction has no meaning yet; safe. No arm is such. -/
  | notModelled (mnemonic : String)
  /-- Raised by the step of a state whose configuration breaks 30_encoding.md R77; safe (log 2). -/
  | illFormedConfiguration
  deriving DecidableEq, Repr

/-- The constant configuration (R26, R33) and the environment's state (R29, R31). -/
structure State where
  /-- The configuration record, constant for a run (R26). -/
  cfg : Config
  /-- The whole input sequence (R31). -/
  input : List Word
  /-- The 0-based position of the next input word (R29). -/
  i : Nat
  /-- Running or stopped (R29). -/
  status : RunStatus
  /-- The lines emitted so far, in order (R29). -/
  out : List Text
  /-- The diagnostics emitted so far, in order (R29, R267). -/
  diag : List (DecodeErrorKind × Word)
  deriving DecidableEq, Repr

/-- R33: the start-of-run values. The input comes from outside; nothing is loaded here (log 3). -/
def State.reset : State :=
  { cfg := Config.default, input := [], i := 0, status := .running, out := [], diag := [] }

end Sys2Proof.Machine
end

