-- ==== Sys2Proof/Machine/Ops.lean ====
section
/-! DEFINITION. The named operations over the environment's state (spec 10_state.md R30 to R32): the address of the next
word, emitting a line, taking a decode error, stopping, and starting a run. There is no register and no memory to operate
on (R23, R28). -/

namespace Sys2Proof.Machine

/-- R30: the address given to the word at position `i`, (BASE + 4·i) mod 2^32. -/
def addressAt (base : Word) (i : Nat) : Word := BitVec.ofNat 32 (base.toNat + 4 * i)

/-- `addr_in` of the next transaction (R30, R32). -/
def State.address (s : State) : Word := addressAt s.cfg.base s.i

/-- R31: the words an input presents: those before its end or its first sentinel, whichever comes first. -/
def presented (input : List Word) : List Word := input.takeWhile fun w => w != sentinel

/-- R32: the word that remains at position `i`, if the end of the input is not reached. -/
def State.nextWord (s : State) : Option Word := (presented s.input)[s.i]?

/-- R32, the arm `Line(l)`: `out <- out ++ [l]`, then `i <- i + 1`. -/
def State.emitLine (l : Text) (s : State) : State := { s with out := s.out ++ [l], i := s.i + 1 }

/-- R32, the arm `Error(k, w)`, and R270: the one shared operation that takes a decode error. It appends (kind, word) to
`diag`, stops under `abort`, and counts the word (D16; log 6). It saves nothing and goes nowhere, so there is no return
from it (60_exceptions.md R272). -/
def State.takeError (e : DecodeError) (s : State) : State :=
  { s with
    diag := s.diag ++ [(e.kind, e.word)]
    status := if s.cfg.onError = .abort then .stopped else s.status
    i := s.i + 1 }

/-- R32: the end of the input is reached (log 4). -/
def State.stop (s : State) : State := { s with status := .stopped }

/-- Printing an instruction: FMT's line for the address of the next word, delivered (R32, R90). The one shared operation
of the meanings. -/
def printLine (raw : Word) (m : Mnem) (ops : List Text) (s : State) : Host.Outcome State Fault Refusal :=
  .next (s.emitLine (lineText s.cfg s.address raw m ops))

/-- R292: the state at the start of a run, once the outside has fixed the configuration and the input; every other field
is R33's. -/
def startRun (cfg : Config) (input : List Word) : State :=
  { cfg := cfg, input := input, i := 0, status := .running, out := [], diag := [] }

/-- The start of a run on a byte image, in the byte order the caller gives (20_memory.md R41), or none for an image that is
no whole number of words (log 12). -/
def startImage (cfg : Config) (order : ByteOrder) (image : List Byte) : Option State :=
  match wordsOfImage order image with
  | .words ws => some (startRun cfg ws)
  | .leftover _ => none

/-- Place a word where the next step presents it: at position `i` of the words presented, in a running environment. Words
after that position stay; positions before it that the input does not have are filled with 0 (log 3). -/
def State.placeWord (s : State) (w : Word) : State :=
  let before := (presented s.input).take s.i
  { s with
    input := before ++ List.replicate (s.i - before.length) 0 ++ w :: s.input.drop (s.i + 1)
    status := .running }

end Sys2Proof.Machine
end

