-- ==== Sys2Proof/Machine/Branch.lean ====
section
/-! DEFINITION. Branch mnemonics (spec 44_branch.md R210 to R217). The printed number is the scaled field, not a target (R217). -/

namespace Sys2Proof.Machine

/-- R211: `beq $rs, $rt, imm×4`. -/
def execBeq (f : ImmediateFields) (s : State) : Host.Outcome State Fault Refusal :=
  printLine f.raw (.i .beq) (twoRegisterBranchOps f) s

/-- R212: `bne $rs, $rt, imm×4`. -/
def execBne (f : ImmediateFields) (s : State) : Host.Outcome State Fault Refusal :=
  printLine f.raw (.i .bne) (twoRegisterBranchOps f) s

/-- R213: `blez $rs, imm×4`. -/
def execBlez (f : ImmediateFields) (s : State) : Host.Outcome State Fault Refusal :=
  printLine f.raw (.i .blez) (oneRegisterBranchOps f) s

/-- R214: `bgtz $rs, imm×4`. -/
def execBgtz (f : ImmediateFields) (s : State) : Host.Outcome State Fault Refusal :=
  printLine f.raw (.i .bgtz) (oneRegisterBranchOps f) s

/-- R215: `bltz $rs, imm×4`. -/
def execBltz (f : ImmediateFields) (s : State) : Host.Outcome State Fault Refusal :=
  printLine f.raw (.i .bltz) (oneRegisterBranchOps f) s

/-- R216: `bgez $rs, imm×4`. -/
def execBgez (f : ImmediateFields) (s : State) : Host.Outcome State Fault Refusal :=
  printLine f.raw (.i .bgez) (oneRegisterBranchOps f) s

end Sys2Proof.Machine
end

