-- ==== Sys2Proof/Machine/ImmediateOps.lean ====
section
/-! DEFINITION. Immediate arithmetic, logical and load-upper mnemonics (spec 42_immediate_ops.md R171 to R175). -/

namespace Sys2Proof.Machine

/-- R171: `addi $rt, $rs, imm`. -/
def execAddi (f : ImmediateFields) (s : State) : Host.Outcome State Fault Refusal :=
  printLine f.raw (.i .addi) (immediateOps f) s

/-- R172: `addiu $rt, $rs, imm`. -/
def execAddiu (f : ImmediateFields) (s : State) : Host.Outcome State Fault Refusal :=
  printLine f.raw (.i .addiu) (immediateOps f) s

/-- R173: `andi $rt, $rs, imm`. -/
def execAndi (f : ImmediateFields) (s : State) : Host.Outcome State Fault Refusal :=
  printLine f.raw (.i .andi) (immediateOps f) s

/-- R174: `ori $rt, $rs, imm`. -/
def execOri (f : ImmediateFields) (s : State) : Host.Outcome State Fault Refusal :=
  printLine f.raw (.i .ori) (immediateOps f) s

/-- R175: `lui $rt, imm`. -/
def execLui (f : ImmediateFields) (s : State) : Host.Outcome State Fault Refusal :=
  printLine f.raw (.i .lui) (loadUpperOps f) s

end Sys2Proof.Machine
end

