-- ==== Sys2Proof/Machine/Jump.lean ====
section
/-! DEFINITION. Jump mnemonics (spec 45_jump.md R240 to R242). -/

namespace Sys2Proof.Machine

/-- R241: `j hex8(target×4)`. -/
def execJ (f : JumpFields) (s : State) : Host.Outcome State Fault Refusal :=
  printLine f.raw (.j .j) (jumpOps f) s

/-- R242: `jal hex8(target×4)`. -/
def execJal (f : JumpFields) (s : State) : Host.Outcome State Fault Refusal :=
  printLine f.raw (.j .jal) (jumpOps f) s

end Sys2Proof.Machine
end

