-- ==== Sys2Proof/Machine/LoadStore.lean ====
section
/-! DEFINITION. Load and store mnemonics (spec 43_load_store.md R190 to R195). Rendered, not performed (20_memory.md R40). -/

namespace Sys2Proof.Machine

/-- R191: `lb $rt, imm×4($rs)`. -/
def execLb (f : ImmediateFields) (s : State) : Host.Outcome State Fault Refusal :=
  printLine f.raw (.i .lb) (loadStoreOps f) s

/-- R192: `lw $rt, imm×4($rs)`. -/
def execLw (f : ImmediateFields) (s : State) : Host.Outcome State Fault Refusal :=
  printLine f.raw (.i .lw) (loadStoreOps f) s

/-- R193: `sb $rt, imm×4($rs)`. -/
def execSb (f : ImmediateFields) (s : State) : Host.Outcome State Fault Refusal :=
  printLine f.raw (.i .sb) (loadStoreOps f) s

/-- R194: `sw $rt, imm×4($rs)`. -/
def execSw (f : ImmediateFields) (s : State) : Host.Outcome State Fault Refusal :=
  printLine f.raw (.i .sw) (loadStoreOps f) s

end Sys2Proof.Machine
end

