-- ==== Sys2Proof/Machine/RegisterControl.lean ====
section
/-! DEFINITION. Register-form control and system mnemonics (spec 41_register_control.md R150 to R154). No target is computed, no register is read or linked, no mode changes (R154, R274). -/

namespace Sys2Proof.Machine

/-- R150: `jr $rs`. -/
def execJr (f : RegisterFields) (s : State) : Host.Outcome State Fault Refusal :=
  printLine f.raw (.r .jr) (jumpRegisterOps f) s

/-- R151: `jalr $rd, $rs`. -/
def execJalr (f : RegisterFields) (s : State) : Host.Outcome State Fault Refusal :=
  printLine f.raw (.r .jalr) (jumpLinkRegisterOps f) s

/-- R152: `syscall`, no operands. -/
def execSyscall (f : RegisterFields) (s : State) : Host.Outcome State Fault Refusal :=
  printLine f.raw (.r .syscall) noOps s

/-- R153: `nop`, no operands. -/
def execNop (f : RegisterFields) (s : State) : Host.Outcome State Fault Refusal :=
  printLine f.raw (.r .nop) noOps s

end Sys2Proof.Machine
end

