-- ==== Sys2Proof/Machine/RegisterOps.lean ====
section
/-! DEFINITION. Register-form arithmetic, logical and shift mnemonics (spec 40_register_ops.md R121 to R128). -/

namespace Sys2Proof.Machine

/-- R121: `add $rd, $rs, $rt`. -/
def execAdd (f : RegisterFields) (s : State) : Host.Outcome State Fault Refusal :=
  printLine f.raw (.r .add) (standardRegisterOps f) s

/-- R122: `addu $rd, $rs, $rt`. -/
def execAddu (f : RegisterFields) (s : State) : Host.Outcome State Fault Refusal :=
  printLine f.raw (.r .addu) (standardRegisterOps f) s

/-- R123: `and $rd, $rs, $rt`. -/
def execAnd (f : RegisterFields) (s : State) : Host.Outcome State Fault Refusal :=
  printLine f.raw (.r .and) (standardRegisterOps f) s

/-- R124: `mul $rd, $rs, $rt`. -/
def execMul (f : RegisterFields) (s : State) : Host.Outcome State Fault Refusal :=
  printLine f.raw (.r .mul) (standardRegisterOps f) s

/-- R125: `slt $rd, $rs, $rt`. -/
def execSlt (f : RegisterFields) (s : State) : Host.Outcome State Fault Refusal :=
  printLine f.raw (.r .slt) (standardRegisterOps f) s

/-- R126: `sub $rd, $rs, $rt`. -/
def execSub (f : RegisterFields) (s : State) : Host.Outcome State Fault Refusal :=
  printLine f.raw (.r .sub) (standardRegisterOps f) s

/-- R127: `sll $rd, $rt, shamt`. -/
def execSll (f : RegisterFields) (s : State) : Host.Outcome State Fault Refusal :=
  printLine f.raw (.r .sll) (shiftOps f) s

/-- R128: `sra $rd, $rt, shamt`. -/
def execSra (f : RegisterFields) (s : State) : Host.Outcome State Fault Refusal :=
  printLine f.raw (.r .sra) (shiftOps f) s

end Sys2Proof.Machine
end

