-- ==== Sys2Proof/Machine/Dispatch.lean ====
section
/-! DEFINITION. One arm per instruction: each calls its own meaning. -/

namespace Sys2Proof.Machine

def exec (i : Instr) (s : State) : Host.Outcome State Fault Refusal :=
  match i with
  | .add f => Sys2Proof.Machine.execAdd f s
  | .addu f => Sys2Proof.Machine.execAddu f s
  | .and f => Sys2Proof.Machine.execAnd f s
  | .mul f => Sys2Proof.Machine.execMul f s
  | .slt f => Sys2Proof.Machine.execSlt f s
  | .sub f => Sys2Proof.Machine.execSub f s
  | .sll f => Sys2Proof.Machine.execSll f s
  | .sra f => Sys2Proof.Machine.execSra f s
  | .jr f => Sys2Proof.Machine.execJr f s
  | .jalr f => Sys2Proof.Machine.execJalr f s
  | .syscall f => Sys2Proof.Machine.execSyscall f s
  | .nop f => Sys2Proof.Machine.execNop f s
  | .addi f => Sys2Proof.Machine.execAddi f s
  | .addiu f => Sys2Proof.Machine.execAddiu f s
  | .andi f => Sys2Proof.Machine.execAndi f s
  | .ori f => Sys2Proof.Machine.execOri f s
  | .lui f => Sys2Proof.Machine.execLui f s
  | .lb f => Sys2Proof.Machine.execLb f s
  | .lw f => Sys2Proof.Machine.execLw f s
  | .sb f => Sys2Proof.Machine.execSb f s
  | .sw f => Sys2Proof.Machine.execSw f s
  | .beq f => Sys2Proof.Machine.execBeq f s
  | .bne f => Sys2Proof.Machine.execBne f s
  | .blez f => Sys2Proof.Machine.execBlez f s
  | .bgtz f => Sys2Proof.Machine.execBgtz f s
  | .bltz f => Sys2Proof.Machine.execBltz f s
  | .bgez f => Sys2Proof.Machine.execBgez f s
  | .j f => Sys2Proof.Machine.execJ f s
  | .jal f => Sys2Proof.Machine.execJal f s

end Sys2Proof.Machine
end

