-- ==== Sys2Proof/Machine/Environment.lean ====
section
/-! DEFINITION. One step of the environment (spec 10_state.md R32), around the meanings. -/

namespace Sys2Proof.Machine

/-- R32: present a word to the block. DEC decodes it; an instruction runs its meaning, an error is taken. -/
def present (w : Word) (s : State) : Host.Outcome State Fault Refusal :=
  match decode s.cfg w with
  | .ok ins => exec ins s
  | .err e => .next (s.takeError e)

/-- R32, for a configuration that R77 accepts; any other configuration is refused (log 2). A stopped environment takes no
step (log 5); at the end of the input it stops (log 4). -/
def environmentStep (s : State) : Host.Outcome State Fault Refusal :=
  if s.cfg.wf then
    match s.status with
    | .stopped => .fault .stopped
    | .running =>
      match s.nextWord with
      | none => .next s.stop
      | some w => present w s
  else .refused .illFormedConfiguration

end Sys2Proof.Machine
end

