-- ==== Sys2Proof/Machine/Step.lean ====
section
/-! DEFINITION. The machine's step, and the host's placing of one instruction word. -/

namespace Sys2Proof.Machine

/-- One environment step (spec 10_state.md R32). -/
def step (s : State) : Host.Outcome State Fault Refusal := environmentStep s

/-- The state in which the next step presents the instruction whose bits are `w` (log 3). -/
def State.withFetchWord (s : State) (nbits w : Nat) : State := s.placeWord (tableWord nbits w)

end Sys2Proof.Machine
end

