-- ==== Sys2Proof/Machine/Flags.lean ====
section
/-! DEFINITION. Flags: the block has none (spec 10_state.md R25), and every per-mnemonic rule says "Flags: none". The type
of flags is therefore empty, and State has no field for one. -/

namespace Sys2Proof.Machine

/-- R25: there is no flag. -/
inductive Flag
  deriving DecidableEq, Repr

/-- The "Flags" item of the rules of 40 to 45: none, for every instruction. -/
def flagsWritten (_ : Instr) : List Flag := []

end Sys2Proof.Machine
end

