-- ==== Sys2Proof/Machine/Transaction.lean ====
section
/-! DEFINITION. The block as a pure function (spec 10_state.md R20 to R22): one transaction takes a configuration, an
address and a word, and gives one line or one error. -/

namespace Sys2Proof.Machine

/-- R21: `Line(string)` or `Error(kind, word)`. -/
inductive Result
  | line (l : Text)
  | error (kind : DecodeErrorKind) (word : Word)
  deriving DecidableEq, Repr

/-- R20, R21, R22: DEC, then FMT on its `ok` value; FMT is not used on an `err` (60_exceptions.md R266). -/
def transaction (cfg : Config) (a w : Word) : Result :=
  match decode cfg w with
  | .ok ins => .line (format cfg a ins.form)
  | .err e => .error e.kind e.word

end Sys2Proof.Machine
end

