-- ==== Sys2Proof/Safety.lean ====
section
/-! DEFINITION. What a run of the environment should show (spec 10_state.md R29 to R32, 20_memory.md R48): the
transactions of all presented words evaluated independently, cut at the first error under `abort`, and assembled in input
order; and the invariant that ties a state to that listing. -/

namespace Sys2Proof.Machine

/-- A step outcome a safe run may show: a next state, or the stuck state of a finished run. -/
def safeOutcome : Host.Outcome State Fault Refusal → Bool
  | .next _ => true
  | .fault .stopped => true
  | .fault .formatterMismatch => false
  | .refused _ => false

/-- R48: each word's transaction, evaluated on its own with the address of its position. -/
def results (cfg : Config) (ws : List Word) : List Result :=
  ws.mapIdx fun k w => transaction cfg (addressAt cfg.base k) w

/-- The lines among some results, in order. -/
def linesOf (rs : List Result) : List Text :=
  rs.filterMap fun
    | .line l => some l
    | .error _ _ => none

/-- The diagnostics among some results, in order. -/
def errorsOf (rs : List Result) : List (DecodeErrorKind × Word) :=
  rs.filterMap fun
    | .line _ => none
    | .error k w => some (k, w)

/-- The results up to and including the first error. -/
def untilError : List Result → List Result
  | [] => []
  | .line l :: rs => .line l :: untilError rs
  | .error k w :: _ => [.error k w]

/-- R270: which results a run delivers under a policy. -/
def delivered : ErrorPolicy → List Result → List Result
  | .abort, rs => untilError rs
  | .skip, rs => rs

/-- R32: the observation (out, diag) of a run on an input. -/
def listing (cfg : Config) (input : List Word) : List Text × List (DecodeErrorKind × Word) :=
  let rs := delivered cfg.onError (results cfg (presented input))
  (linesOf rs, errorsOf rs)

/-- What a state shows (R32). -/
def State.observation (s : State) : List Text × List (DecodeErrorKind × Word) := (s.out, s.diag)

/-- The state's channels hold exactly the results of the words presented so far, in input order, and the run goes on or has
stopped as R32 says. -/
structure State.ListingInv (s : State) : Prop where
  /-- The configuration is one R77 accepts. -/
  accepted : s.cfg.wf = true
  /-- No position past the end of the input is reached. -/
  position : s.i ≤ (presented s.input).length
  /-- `out` is the lines of the first `i` words. -/
  lines : s.out = linesOf (results s.cfg ((presented s.input).take s.i))
  /-- `diag` is the errors of the first `i` words. -/
  errors : s.diag = errorsOf (results s.cfg ((presented s.input).take s.i))
  /-- Under `abort`, a running environment has met no error. -/
  running : s.status = .running → s.cfg.onError = .abort → s.diag = []
  /-- A stopped environment is at the end of the input, or at the one error that stopped it, that of the last word presented. -/
  stopped : s.status = .stopped →
    (s.i = (presented s.input).length ∧ (s.cfg.onError = .abort → s.diag = [])) ∨
    (s.cfg.onError = .abort ∧ 0 < s.i ∧ s.diag ≠ [] ∧ errorsOf (results s.cfg ((presented s.input).take (s.i - 1))) = [])

end Sys2Proof.Machine
end

