-- ==== Sys2Proof/Certificates/Slice0/Obligations.lean ====
section
/-! DEFINITION. The statements for the provers. Rules are those of spec/. A docstring that names a decision D<n> of
92_eei_decisions.md or a log entry says where the statement rests on a choice and not on the source. -/

open Sys2Proof Sys2Proof.Machine

namespace Sys2Proof.Slice0

/-- The line of R90 for the next word of `s`, written out: address, raw word, mnemonic and operands (`text`), terminator. -/
def lineWith (s : State) (raw : Word) (text : Text) : Text :=
  "[".toList ++ hex8 (BitVec.ofNat 32 (s.cfg.base.toNat + 4 * s.i)) ++ "] ".toList ++ hex8 raw ++ " ".toList ++ text ++ s.cfg.eol

/-- `s` after that line: one more line in `out`, one more word counted, nothing else changed. -/
def afterLine (s : State) (raw : Word) (text : Text) : State :=
  { s with out := s.out ++ [lineWith s raw text], i := s.i + 1 }

/-- `$n` for a register field. -/
def reg (n : RegNum) : Text := "$".toList ++ dec n.toNat

/-- The value of a decimal digit string. -/
def decimalValue (d : Text) : Nat := d.foldl (fun acc c => 10 * acc + (c.toNat - 48)) 0

/-- The value of a lowercase hexadecimal digit string. -/
def hexValue (d : Text) : Nat := d.foldl (fun acc c => 16 * acc + if c.isDigit then c.toNat - 48 else c.toNat - 87) 0

/-- The bytes of a word, lowest address first. -/
def bytesOf (order : ByteOrder) (w : Word) : List Byte :=
  match order with
  | .big => [w.extractLsb' 24 8, w.extractLsb' 16 8, w.extractLsb' 8 8, w.extractLsb' 0 8]
  | .little => [w.extractLsb' 0 8, w.extractLsb' 8 8, w.extractLsb' 16 8, w.extractLsb' 24 8]

/-- The rows of opcode_table.json: mnemonic, match, mask. -/
def tableRows : List (Mnem × Word × Word) :=
  [(.r .add, 0x00000020, 0xFC00003F), (.r .addu, 0x00000021, 0xFC00003F), (.r .and, 0x00000024, 0xFC00003F),
   (.r .mul, 0x70000000, 0xFC000000), (.r .slt, 0x0000002A, 0xFC00003F), (.r .sub, 0x00000022, 0xFC00003F),
   (.r .sll, 0x00000000, 0xFC00003F), (.r .sra, 0x00000003, 0xFC00003F), (.r .jr, 0x00000008, 0xFC00003F),
   (.r .jalr, 0x00000009, 0xFC00003F), (.r .syscall, 0x0000000C, 0xFC00003F), (.r .nop, 0x00000000, 0xFFFFFFFF)] ++
  [(.i .addi, 0x24000000, 0xFC000000), (.i .addiu, 0x20000000, 0xFC000000), (.i .andi, 0x30000000, 0xFC000000),
   (.i .ori, 0x34000000, 0xFC000000), (.i .lui, 0x3C000000, 0xFC000000), (.i .lb, 0x80000000, 0xFC000000),
   (.i .lw, 0x8C000000, 0xFC000000), (.i .sb, 0xA0000000, 0xFC000000), (.i .sw, 0xAC000000, 0xFC000000),
   (.i .beq, 0x10000000, 0xFC000000), (.i .bne, 0x14000000, 0xFC000000), (.i .blez, 0x18000000, 0xFC000000),
   (.i .bgtz, 0x1C000000, 0xFC000000), (.i .bltz, 0x04000000, 0xFC1F0000), (.i .bgez, 0x04000000, 0xFC000000)] ++
  [(.j .j, 0x08000000, 0xFC000000), (.j .jal, 0x0C000000, 0xFC000000)]

/-- A row's "condition" key: `sll` is not the zero word, `bgez` has rt ≠ 0. -/
def rowCondition (m : Mnem) (w : Word) : Prop :=
  (m = .r .sll → w ≠ 0) ∧ (m = .i .bgez → w &&& 0x001F0000 ≠ 0)

end Sys2Proof.Slice0

open Sys2Proof.Slice0

/-! ### BFX and DEC -/

/-- R60: `extract` is shift and mask, for every width and offset within the precondition, computed in unbounded arithmetic. -/
def Obligations.ExtractIsShiftAndMask : Prop :=
  ∀ (w : Word) (width offset : Nat) (h : width + offset ≤ 32),
    (extract w width offset h).toNat = (w.toNat >>> offset) &&& ((1 <<< width) - 1) ∧
    (extract w width offset h).toNat < 2 ^ width ∧
    ∀ j, (extract w width offset h).getLsbD j = (decide (j < width) && w.getLsbD (offset + j))

/-- R64: the record of a decoded word holds the word's slices and the word, whatever the mnemonic. -/
def Obligations.RecordFieldsAreWordSlices : Prop :=
  ∀ (cfg : Config) (w : Word) (ins : Instr), decode cfg w = .ok ins →
    match ins.form with
    | .registerForm _ f =>
      f.sourceReg.toNat = w.toNat / 2 ^ 21 % 2 ^ 5 ∧ f.targetReg.toNat = w.toNat / 2 ^ 16 % 2 ^ 5 ∧
      f.destReg.toNat = w.toNat / 2 ^ 11 % 2 ^ 5 ∧ f.shiftAmount.toNat = w.toNat / 2 ^ 6 % 2 ^ 5 ∧ f.raw = w
    | .immediateForm _ f =>
      f.sourceReg.toNat = w.toNat / 2 ^ 21 % 2 ^ 5 ∧ f.targetReg.toNat = w.toNat / 2 ^ 16 % 2 ^ 5 ∧
      f.immediate.toNat = w.toNat % 2 ^ 16 ∧ f.raw = w
    | .jumpForm _ f => f.targetAddress.toNat = w.toNat % 2 ^ 26 ∧ f.raw = w

/-- R70: the dispatch algorithm, for every configuration and word, with opcode, function code and rt read by division. The
branches are disjoint and leave no word out. -/
def Obligations.DecodeFollowsDispatchAlgorithm : Prop :=
  ∀ (cfg : Config) (w : Word) (op fn rt : Nat), op = w.toNat / 2 ^ 26 → fn = w.toNat % 2 ^ 6 → rt = w.toNat / 2 ^ 16 % 2 ^ 5 →
    decode cfg w =
      if op = 0 then
        if fn = cfg.functMul.toNat then .err ⟨.invalidMultiplyEncoding, w⟩
        else match cfg.functMap.lookup (BitVec.ofNat 6 fn) with
          | none => .err ⟨.unrecognizedFunctionCode, w⟩
          | some m => .ok (Instruction.registerForm (if m = .sll ∧ w = 0 then .nop else m) (registerFields w)).instr
      else if op = 1 then
        .ok (Instruction.immediateForm (if rt ≠ 0 then .bgez else .bltz) (immediateFields w)).instr
      else match cfg.opcodeMap.lookup (BitVec.ofNat 6 op) with
        | none => .err ⟨.unrecognizedOpcode, w⟩
        | some (.imm m) => .ok (Instruction.immediateForm m (immediateFields w)).instr
        | some (.jump m) => .ok (Instruction.jumpForm m (jumpFields w)).instr
        | some .mul => .ok (Instruction.registerForm .mul (registerFields w)).instr

/-- R71: opcode 1 is `bltz` when rt is zero and `bgez` for each of the other 31 values, which the record keeps. -/
def Obligations.OpcodeOneTieBreak : Prop :=
  ∀ (cfg : Config) (rs rt : RegNum) (imm : BitVec 16) (w : Word), w = 1#6 ++ rs ++ rt ++ imm →
    (rt = 0 → decode cfg w = .ok (.bltz ⟨rs, 0, imm, w⟩)) ∧ (rt ≠ 0 → decode cfg w = .ok (.bgez ⟨rs, rt, imm, w⟩))

/-- R74: the all-zero word is `nop` with all fields zero, every other opcode-0 word with the code of `sll` is `sll` (the
rule's two examples among them), and nothing else is `nop`. -/
def Obligations.ZeroWordAloneIsNop : Prop :=
  ∀ cfg : Config, cfg.wf = true →
    decode cfg 0 = .ok (.nop ⟨0, 0, 0, 0, 0⟩) ∧
    (∀ w : Word, w ≠ 0 → w.toNat / 2 ^ 26 = 0 → cfg.functEntry (BitVec.ofNat 6 (w.toNat % 2 ^ 6)) = some .sll →
      ∃ f, decode cfg w = .ok (.sll f)) ∧
    decode cfg 0x00000040 = .ok (.sll ⟨0, 0, 0, 1, 0x00000040⟩) ∧
    decode cfg 0x00010000 = .ok (.sll ⟨0, 1, 0, 0, 0x00010000⟩) ∧
    ∀ (w : Word) (f : RegisterFields), decode cfg w = .ok (.nop f) → w = 0

/-- R75: `mul` is dispatched by its opcode alone, whatever bits [10:0] hold, and its fields are extracted. -/
def Obligations.MulDispatchedByOpcodeAlone : Prop :=
  ∀ (cfg : Config) (op : Code), cfg.wf = true → cfg.opcodeEntry op = some .mul →
    ∀ (rs rt rd sh : BitVec 5) (low : BitVec 6) (w : Word), w = op ++ rs ++ rt ++ rd ++ sh ++ low →
      decode cfg w = .ok (.mul ⟨rs, rt, rd, sh, w⟩)

/-- R120: the function-dispatched RegisterForm path: the record keeps all four fields, only the opcode and the function code
(and the zero word) are tested, and its two errors come first. -/
def Obligations.FunctionDispatchRecord : Prop :=
  ∀ (cfg : Config) (fn : Code) (rs rt rd sh : BitVec 5) (w : Word), cfg.wf = true → w = 0#6 ++ rs ++ rt ++ rd ++ sh ++ fn →
    (∀ m, cfg.functEntry fn = some m →
      decode cfg w = .ok (Instruction.registerForm (if m = .sll ∧ w = 0 then .nop else m) ⟨rs, rt, rd, sh, w⟩).instr) ∧
    (fn = cfg.functMul → decode cfg w = .err ⟨.invalidMultiplyEncoding, w⟩) ∧
    (fn ≠ cfg.functMul → cfg.functEntry fn = none → decode cfg w = .err ⟨.unrecognizedFunctionCode, w⟩)

/-- R170: an opcode-dispatched ImmediateForm word is selected by its opcode alone, and its record keeps rs, rt and the
unsigned immediate. -/
def Obligations.ImmediateDispatchRecord : Prop :=
  ∀ (cfg : Config) (op : Code) (m : IMnem), cfg.wf = true → cfg.opcodeEntry op = some (.imm m) →
    ∀ (rs rt : RegNum) (imm : BitVec 16) (w : Word), w = op ++ rs ++ rt ++ imm →
      decode cfg w = .ok (Instruction.immediateForm m ⟨rs, rt, imm, w⟩).instr

/-- R240, the decode part: a JumpForm word is selected by its opcode alone, and its record keeps bits [25:0] unshifted. -/
def Obligations.JumpDispatchRecord : Prop :=
  ∀ (cfg : Config) (op : Code) (m : JMnem), cfg.wf = true → cfg.opcodeEntry op = some (.jump m) →
    ∀ (t : BitVec 26) (w : Word), w = op ++ t → decode cfg w = .ok (Instruction.jumpForm m ⟨t, w⟩).instr

/-- R81: which words raise UnrecognizedOpcode, under every configuration; and the 46 opcodes of the default one, which rest
on the decided numbers D3 to D5 (log 7). -/
def Obligations.UnrecognizedOpcodeExactly : Prop :=
  (∀ (cfg : Config) (w : Word), decode cfg w = .err ⟨.unrecognizedOpcode, w⟩ ↔
    w.extractLsb' 26 6 ≠ 0 ∧ w.extractLsb' 26 6 ≠ 1 ∧ cfg.opcodeEntry (w.extractLsb' 26 6) = none) ∧
  ∀ w : Word, decode Config.default w = .err ⟨.unrecognizedOpcode, w⟩ ↔
    w.toNat / 2 ^ 26 ∈
      [0x0A, 0x0B, 0x0E, 0x10, 0x11, 0x12, 0x13, 0x14, 0x15, 0x16, 0x17, 0x18, 0x19, 0x1A, 0x1B, 0x1D, 0x1E, 0x1F, 0x21, 0x22,
       0x24, 0x25, 0x26, 0x27, 0x29, 0x2A] ++ List.range' 0x2C 20

/-- R82: which words raise UnrecognizedFunctionCode, under every configuration; and the eleven function codes of the default
one that do not, which rest on the decided numbers D6 and D7 (log 7). -/
def Obligations.UnrecognizedFunctionCodeExactly : Prop :=
  (∀ (cfg : Config) (w : Word), decode cfg w = .err ⟨.unrecognizedFunctionCode, w⟩ ↔
    w.extractLsb' 26 6 = 0 ∧ w.extractLsb' 0 6 ≠ cfg.functMul ∧ cfg.functEntry (w.extractLsb' 0 6) = none) ∧
  ∀ w : Word, decode Config.default w = .err ⟨.unrecognizedFunctionCode, w⟩ ↔
    w.toNat / 2 ^ 26 = 0 ∧
    w.toNat % 2 ^ 6 ∉ [0x00, 0x02, 0x03, 0x08, 0x09, 0x0C, 0x20, 0x21, 0x22, 0x24, 0x2A]

/-- R76, R129, R263: which words raise InvalidMultiplyEncoding, under every configuration; the default FUNCT_MUL 0x02 is the
decided number D7 (log 7), under which a MIPS32 `srl` word raises it. -/
def Obligations.InvalidMultiplyEncodingExactly : Prop :=
  (∀ (cfg : Config) (w : Word), decode cfg w = .err ⟨.invalidMultiplyEncoding, w⟩ ↔
    w.extractLsb' 26 6 = 0 ∧ w.extractLsb' 0 6 = cfg.functMul) ∧
  (∀ w : Word, decode Config.default w = .err ⟨.invalidMultiplyEncoding, w⟩ ↔
    w.toNat / 2 ^ 26 = 0 ∧ w.toNat % 2 ^ 6 = 0x02) ∧
  decode Config.default 0x00031102 = .err ⟨.invalidMultiplyEncoding, 0x00031102⟩

/-- R80, D27: two words that agree in the bits dispatch reads get the same mnemonic, or the same kind of error. -/
def Obligations.DontCareBitsDoNotDispatch : Prop :=
  ∀ (cfg : Config) (w w' : Word),
    w.extractLsb' 26 6 = w'.extractLsb' 26 6 →
    (w.extractLsb' 26 6 = 0 → w.extractLsb' 0 6 = w'.extractLsb' 0 6 ∧ (w = 0 ↔ w' = 0)) →
    (w.extractLsb' 26 6 = 1 → (w.extractLsb' 16 5 = 0 ↔ w'.extractLsb' 16 5 = 0)) →
    match decode cfg w, decode cfg w' with
    | .ok a, .ok b => a.mnem = b.mnem
    | .err a, .err b => a.kind = b.kind
    | _, _ => False

/-- R260, R265: a decode error carries the input word; its kind is one of three, each under its own exclusive condition. The
ordinals are the spec's own (D17). -/
def Obligations.DecodeErrorCarriesWord : Prop :=
  ∀ (cfg : Config) (w : Word) (e : DecodeError), decode cfg w = .err e →
    e.word = w ∧
    ((e.kind = .unrecognizedOpcode ∧ e.kind.ordinal = 1 ∧ w.toNat / 2 ^ 26 ≠ 0 ∧ w.toNat / 2 ^ 26 ≠ 1) ∨
     (e.kind = .unrecognizedFunctionCode ∧ e.kind.ordinal = 2 ∧ w.toNat / 2 ^ 26 = 0 ∧ w.toNat % 2 ^ 6 ≠ cfg.functMul.toNat) ∨
     (e.kind = .invalidMultiplyEncoding ∧ e.kind.ordinal = 3 ∧ w.toNat / 2 ^ 26 = 0 ∧ w.toNat % 2 ^ 6 = cfg.functMul.toNat))

/-- Decode and encode agree, one way: a well-formed instruction's word, built from the format tables of R63, decodes to it.
The encoder is the model's (log 10). -/
def Obligations.EncodeThenDecode : Prop :=
  ∀ (cfg : Config) (ins : Instr), cfg.wf = true → ins.wf cfg = true →
    ∃ w, encode cfg ins = some w ∧ decode cfg w = .ok ins

/-- Decode and encode agree, the other way: what a word decodes to is well formed, and its word is that word. -/
def Obligations.DecodeThenEncode : Prop :=
  ∀ (cfg : Config) (w : Word) (ins : Instr), cfg.wf = true → decode cfg w = .ok ins →
    ins.wf cfg = true ∧ encode cfg ins = some w

/-- opcode_table.json: under the default configuration (log 7), a word decodes to a row's mnemonic exactly when it matches
the row's match under its mask and meets its condition. -/
def Obligations.DefaultDecodeMatchesOpcodeTable : Prop :=
  ∀ row ∈ tableRows, ∀ w : Word,
    (∃ ins, decode Config.default w = .ok ins ∧ ins.mnem = row.1) ↔ (w &&& row.2.2 = row.2.1 ∧ rowCondition row.1 w)

/-- A few words written out bit by bit from R63 and the default tables (log 7) decode to the instruction they stand for. -/
def Obligations.SampleWordsDecode : Prop :=
  decode Config.default 0b00000000001000100001100000100000#32 = .ok (.add ⟨1, 2, 3, 0, 0x00221820⟩) ∧
  decode Config.default 0b00000000100000001111100000001001#32 = .ok (.jalr ⟨4, 0, 31, 0, 0x0080F809⟩) ∧
  decode Config.default 0b00100000000000100000000000000001#32 = .ok (.addiu ⟨0, 2, 1, 0x20020001⟩) ∧
  decode Config.default 0b10001100010000110000000000000101#32 = .ok (.lw ⟨2, 3, 5, 0x8C430005⟩) ∧
  decode Config.default 0b00000100101100010000000000000100#32 = .ok (.bgez ⟨5, 17, 4, 0x04B10004⟩) ∧
  decode Config.default 0b00001000000000000000000100000000#32 = .ok (.j ⟨0x100, 0x08000100⟩)

/-! ### Configurations -/

/-- R77: what the model accepts, said over the maps and not over their lists. That a list naming a code twice is no map is
the model's (log 14), so it is a premise. -/
def Obligations.AcceptedConfigurationsAreRule77s : Prop :=
  ∀ cfg : Config, (cfg.opcodeMap.map Prod.fst).Nodup → (cfg.functMap.map Prod.fst).Nodup →
    (cfg.wf = true ↔
      (∀ op op' m, cfg.opcodeEntry op = some m → cfg.opcodeEntry op' = some m → op = op') ∧
      cfg.opcodeEntry 0 = none ∧ cfg.opcodeEntry 1 = none ∧
      (∀ m, (∃ op, cfg.opcodeEntry op = some m) ↔
        (m = .mul ∨ m = .jump .j ∨ m = .jump .jal ∨ ∃ im, m = .imm im ∧ im ≠ .bltz ∧ im ≠ .bgez)) ∧
      cfg.opcodeEntry 8 = some (.imm .addiu) ∧
      (∀ fn fn' m, cfg.functEntry fn = some m → cfg.functEntry fn' = some m → fn = fn') ∧
      (∀ m, (∃ fn, cfg.functEntry fn = some m) ↔ m ≠ .mul ∧ m ≠ .nop) ∧
      cfg.functEntry cfg.functMul = none ∧
      cfg.functEntry 0 = some .sll)

/-- R77, 95_test_vectors.md 2.10: a configuration that breaks a clause is refused by every step, whatever the rest of the
state; the three ill-formed variants of 2.10 are such, and the default and its FUNCT_MUL = 0x18 variant are not. -/
def Obligations.IllFormedConfigurationRefused : Prop :=
  (∀ s : State, s.cfg.wf = false → step s = .refused .illFormedConfiguration) ∧
  (∀ s : State, s.cfg.wf = true → ∀ r, step s ≠ .refused r) ∧
  Config.default.wf = true ∧
  ({ Config.default with functMul := 0x18 } : Config).wf = true ∧
  ({ Config.default with opcodeMap := defaultOpcodeMap.filter fun e => e.2 != .imm .addi } : Config).wf = false ∧
  ({ Config.default with functMap := (0x01, .sll) :: defaultFunctMap.filter fun e => e.2 != .sll } : Config).wf = false ∧
  ({ Config.default with functMap := (0x02, .add) :: defaultFunctMap.filter fun e => e.2 != .add } : Config).wf = false

/-! ### What each instruction prints. Each clause is the whole next state: `out` gains the line, `i` the word, and the
configuration, the input, the status and the diagnostics stay (the frame). Spellings, spacing and number bases are the
decided D8 to D12 and D24 (log 8). -/

/-- R121 to R126: `$rd, $rs, $rt`. -/
def Obligations.StandardRegisterOpsPrint : Prop :=
  ∀ (f : RegisterFields) (s : State) (ops : Text),
    ops = " ".toList ++ reg f.destReg ++ ", ".toList ++ reg f.sourceReg ++ ", ".toList ++ reg f.targetReg →
    exec (.add f) s = .next (afterLine s f.raw ("add".toList ++ ops)) ∧
    exec (.addu f) s = .next (afterLine s f.raw ("addu".toList ++ ops)) ∧
    exec (.and f) s = .next (afterLine s f.raw ("and".toList ++ ops)) ∧
    exec (.mul f) s = .next (afterLine s f.raw ("mul".toList ++ ops)) ∧
    exec (.slt f) s = .next (afterLine s f.raw ("slt".toList ++ ops)) ∧
    exec (.sub f) s = .next (afterLine s f.raw ("sub".toList ++ ops))

/-- R127, R128: `$rd, $rt, shamt`. -/
def Obligations.ShiftsPrint : Prop :=
  ∀ (f : RegisterFields) (s : State) (ops : Text),
    ops = " ".toList ++ reg f.destReg ++ ", ".toList ++ reg f.targetReg ++ ", ".toList ++ dec f.shiftAmount.toNat →
    exec (.sll f) s = .next (afterLine s f.raw ("sll".toList ++ ops)) ∧
    exec (.sra f) s = .next (afterLine s f.raw ("sra".toList ++ ops))

/-- R150, R151: `$rs`, and `$rd, $rs` with no default link register. -/
def Obligations.JumpRegistersPrint : Prop :=
  ∀ (f : RegisterFields) (s : State),
    exec (.jr f) s = .next (afterLine s f.raw ("jr ".toList ++ reg f.sourceReg)) ∧
    exec (.jalr f) s = .next (afterLine s f.raw ("jalr ".toList ++ reg f.destReg ++ ", ".toList ++ reg f.sourceReg))

/-- R152, R153: no operand and no trailing space. `syscall` changes no mode (R274): the next state is the line's alone. -/
def Obligations.NoOperandInstructionsPrint : Prop :=
  ∀ (f : RegisterFields) (s : State),
    exec (.syscall f) s = .next (afterLine s f.raw "syscall".toList) ∧
    exec (.nop f) s = .next (afterLine s f.raw "nop".toList)

/-- R171 to R174: `$rt, $rs, imm`, unsigned and unscaled. -/
def Obligations.ImmediateArithmeticPrints : Prop :=
  ∀ (f : ImmediateFields) (s : State) (ops : Text),
    ops = " ".toList ++ reg f.targetReg ++ ", ".toList ++ reg f.sourceReg ++ ", ".toList ++ dec f.immediate.toNat →
    exec (.addi f) s = .next (afterLine s f.raw ("addi".toList ++ ops)) ∧
    exec (.addiu f) s = .next (afterLine s f.raw ("addiu".toList ++ ops)) ∧
    exec (.andi f) s = .next (afterLine s f.raw ("andi".toList ++ ops)) ∧
    exec (.ori f) s = .next (afterLine s f.raw ("ori".toList ++ ops))

/-- R175: `$rt, imm`; rs is not printed. -/
def Obligations.LoadUpperPrints : Prop :=
  ∀ (f : ImmediateFields) (s : State),
    exec (.lui f) s =
      .next (afterLine s f.raw ("lui ".toList ++ reg f.targetReg ++ ", ".toList ++ dec f.immediate.toNat))

/-- R191 to R194: `$rt, imm×4($rs)`, unsigned and scaled, for bytes and words alike. -/
def Obligations.LoadsAndStoresPrint : Prop :=
  ∀ (f : ImmediateFields) (s : State) (ops : Text),
    ops = " ".toList ++ reg f.targetReg ++ ", ".toList ++ dec (4 * f.immediate.toNat) ++ "(".toList ++ reg f.sourceReg ++
      ")".toList →
    exec (.lb f) s = .next (afterLine s f.raw ("lb".toList ++ ops)) ∧
    exec (.lw f) s = .next (afterLine s f.raw ("lw".toList ++ ops)) ∧
    exec (.sb f) s = .next (afterLine s f.raw ("sb".toList ++ ops)) ∧
    exec (.sw f) s = .next (afterLine s f.raw ("sw".toList ++ ops))

/-- R211, R212: `$rs, $rt, imm×4`, unsigned; no target is computed. -/
def Obligations.TwoRegisterBranchesPrint : Prop :=
  ∀ (f : ImmediateFields) (s : State) (ops : Text),
    ops = " ".toList ++ reg f.sourceReg ++ ", ".toList ++ reg f.targetReg ++ ", ".toList ++ dec (4 * f.immediate.toNat) →
    exec (.beq f) s = .next (afterLine s f.raw ("beq".toList ++ ops)) ∧
    exec (.bne f) s = .next (afterLine s f.raw ("bne".toList ++ ops))

/-- R213 to R216: `$rs, imm×4`; rt is not printed. -/
def Obligations.OneRegisterBranchesPrint : Prop :=
  ∀ (f : ImmediateFields) (s : State) (ops : Text),
    ops = " ".toList ++ reg f.sourceReg ++ ", ".toList ++ dec (4 * f.immediate.toNat) →
    exec (.blez f) s = .next (afterLine s f.raw ("blez".toList ++ ops)) ∧
    exec (.bgtz f) s = .next (afterLine s f.raw ("bgtz".toList ++ ops)) ∧
    exec (.bltz f) s = .next (afterLine s f.raw ("bltz".toList ++ ops)) ∧
    exec (.bgez f) s = .next (afterLine s f.raw ("bgez".toList ++ ops))

/-- R241, R242: the target field times 4 in hexadecimal, with no upper address bit merged in. -/
def Obligations.JumpsPrint : Prop :=
  ∀ (f : JumpFields) (s : State) (ops : Text),
    ops = " ".toList ++ hex8 (BitVec.ofNat 32 (4 * f.targetAddress.toNat)) →
    exec (.j f) s = .next (afterLine s f.raw ("j".toList ++ ops)) ∧
    exec (.jal f) s = .next (afterLine s f.raw ("jal".toList ++ ops))

/-- R90, R93, R94: each instruction's own meaning delivers exactly the line the formatter builds from the R14 record by shape
and mnemonic, and never an error. -/
def Obligations.MeaningsAgreeWithFormatter : Prop :=
  ∀ (ins : Instr) (s : State),
    exec ins s = .next { s with out := s.out ++ [format s.cfg (addressAt s.cfg.base s.i) ins.form], i := s.i + 1 }

/-- R20, R25, R26, R274: what every instruction leaves unchanged: the configuration, the input, the status, the diagnostics
and the lines already out; it writes no flag, adds exactly one line and counts one word. -/
def Obligations.InstructionFrame : Prop :=
  ∀ (ins : Instr) (s t : State), exec ins s = .next t →
    t.cfg = s.cfg ∧ t.input = s.input ∧ t.status = s.status ∧ t.diag = s.diag ∧ t.i = s.i + 1 ∧
    t.out.length = s.out.length + 1 ∧ s.out <+: t.out ∧ flagsWritten ins = []

/-- R24, R154, R217, R240: the address reaches the line's first field alone. Everything after it is the same at every
address. -/
def Obligations.AddressReachesOnlyItsField : Prop :=
  ∀ (ins : Instr) (cfg : Config), ∃ rest : Text, ∀ s : State, s.cfg = cfg →
    ∃ t, exec ins s = .next t ∧
      t.out = s.out ++ ["[".toList ++ hex8 (BitVec.ofNat 32 (cfg.base.toNat + 4 * s.i)) ++ "] ".toList ++ rest]

/-! ### Text primitives -/

/-- R12 (D9): `dec` has digits only, no leading zero but for zero itself, and reads back as its value. -/
def Obligations.DecimalSpelling : Prop :=
  ∀ v : Nat, dec v ≠ [] ∧ (∀ c ∈ dec v, c.isDigit = true) ∧ ((dec v).head? = some '0' → v = 0 ∧ dec v = ['0']) ∧
    decimalValue (dec v) = v

/-- R12 (D10): `hex8` is `0x` and exactly eight lowercase hexadecimal digits that read back as its value. -/
def Obligations.HexadecimalSpelling : Prop :=
  ∀ v : Word, ∃ d : Text, hex8 v = '0' :: 'x' :: d ∧ d.length = 8 ∧ (∀ c ∈ d, c ∈ "0123456789abcdef".toList) ∧
    hexValue d = v.toNat

/-- R90: a line determines the address and the word it was made from, and so, under one configuration, the instruction. -/
def Obligations.LineDeterminesTransaction : Prop :=
  ∀ (cfg : Config) (a a' w w' : Word) (l : Text),
    transaction cfg a w = .line l → transaction cfg a' w' = .line l → a = a' ∧ w = w'

/-- R66, R195: the products by 4 are the exact ones, at most 262140 and 0x0FFFFFFC, and multiples of 4. -/
def Obligations.ScalingNeverWraps : Prop :=
  (∀ imm : BitVec 16, (scaledImmediate imm).toNat = imm.toNat * 4 ∧ (scaledImmediate imm).toNat ≤ 262140) ∧
  ∀ t : BitVec 26, (scaledTarget t).toNat = t.toNat * 4 ∧ (scaledTarget t).toNat ≤ 0x0FFFFFFC

/-! ### The environment -/

/-- R30, R43, R295 (D14): the address of position i is BASE + 4i: BASE itself first, 4 more each word, aligned as BASE is,
exact until the wrap, which for the default BASE comes at 0x3FF00000 (R293). -/
def Obligations.AddressFollowsPosition : Prop :=
  (∀ base : Word, addressAt base 0 = base) ∧
  (∀ (base : Word) (i : Nat), addressAt base (i + 1) = addressAt base i + 4) ∧
  (∀ (base : Word) (i : Nat), (addressAt base i).toNat % 4 = base.toNat % 4) ∧
  (∀ (base : Word) (i : Nat), base.toNat + 4 * i < 2 ^ 32 → (addressAt base i).toNat = base.toNat + 4 * i) ∧
  addressAt Config.default.base (0x3FF00000 - 1) = 0xFFFFFFFC ∧ addressAt Config.default.base 0x3FF00000 = 0

/-- R33, R291: the start-of-run values, for every configuration and input the outside fixes (R292): position 0, so the first
word gets BASE itself; running; both channels empty. That reset is such a start on the default configuration with an empty
input is the model's (log 3). -/
def Obligations.StartOfRunValues : Prop :=
  (∀ (cfg : Config) (input : List Word),
    (startRun cfg input).i = 0 ∧ (startRun cfg input).address = cfg.base ∧ (startRun cfg input).status = .running ∧
    (startRun cfg input).out = [] ∧ (startRun cfg input).diag = [] ∧ (startRun cfg input).cfg = cfg ∧
    (startRun cfg input).input = input) ∧
  State.reset = startRun Config.default [] ∧ State.reset.address = 0x00400000

/-- A step runs the decoded instruction: when the word at the position decodes, the step is the instruction's meaning, and
nothing around it. -/
def Obligations.StepRunsDecodedInstruction : Prop :=
  ∀ (s : State) (w : Word) (ins : Instr), s.cfg.wf = true → s.status = .running →
    (presented s.input)[s.i]? = some w → decode s.cfg w = .ok ins → step s = exec ins s

/-- R32: one environment step: it delivers the transaction's line or error and counts the word, stops at the end of the input,
and takes no step once stopped. That the end is a step of its own (log 4), and that the failing word is counted under `abort`
too (log 6), are the model's. -/
def Obligations.EnvironmentStepDeliversTransaction : Prop :=
  Config.default.onError = .abort ∧
  ∀ s : State, s.cfg.wf = true →
    (s.status = .running → ∀ w, (presented s.input)[s.i]? = some w →
      ∃ t, step s = .next t ∧ t.cfg = s.cfg ∧ t.input = s.input ∧ t.i = s.i + 1 ∧
        match transaction s.cfg (BitVec.ofNat 32 (s.cfg.base.toNat + 4 * s.i)) w with
        | .line l => t.out = s.out ++ [l] ∧ t.diag = s.diag ∧ t.status = .running
        | .error k w' => w' = w ∧ t.out = s.out ∧ t.diag = s.diag ++ [(k, w)] ∧
            t.status = if s.cfg.onError = .abort then .stopped else .running) ∧
    (s.status = .running → (presented s.input)[s.i]? = none → step s = .next { s with status := .stopped }) ∧
    (s.status = .stopped → ¬ ∃ t, step s = .next t)

/-- R266, R270: what an error does: the transaction's result is the error, no line is produced, (kind, word) joins `diag`,
`abort` (the default) stops the run, `skip` goes on with the next word at the next address. -/
def Obligations.DecodeErrorIsTaken : Prop :=
  Config.default.onError = .abort ∧
  ∀ (s : State) (w : Word) (e : DecodeError), s.cfg.wf = true → s.status = .running →
    (presented s.input)[s.i]? = some w → decode s.cfg w = .err e →
    transaction s.cfg s.address w = .error e.kind w ∧
    (s.cfg.onError = .abort →
      ∃ t, step s = .next t ∧ t.status = .stopped ∧ t.out = s.out ∧ t.diag = s.diag ++ [(e.kind, w)] ∧ t.cfg = s.cfg ∧
        t.input = s.input) ∧
    (s.cfg.onError = .skip →
      ∃ t, step s = .next t ∧ t = { s with diag := s.diag ++ [(e.kind, w)], i := s.i + 1 } ∧ t.address = s.address + 4)

/-- R31, R32 (D18): the sentinel ends the input and nothing after it is read: a step on an input with a sentinel is the step on
the words before it, and at the sentinel the environment stops. That the end is a step of its own, which only sets the status
(the second clause, and in the first at the end of `before`), is the model's (log 4). -/
def Obligations.NothingAfterSentinelIsRead : Prop :=
  ∀ (s : State) (before after : List Word), (∀ w ∈ before, w ≠ 0xFFFFFFFF) → s.input = before ++ 0xFFFFFFFF :: after →
    (step s =
      match step { s with input := before } with
      | .next t => .next { t with input := s.input }
      | .fault r => .fault r
      | .refused r => .refused r) ∧
    (s.cfg.wf = true → s.status = .running → before.length ≤ s.i → step s = .next { s with status := .stopped })

/-- R20, R290, R294: a transaction's contribution depends on the configuration, the address and the word alone, not on what
came before. -/
def Obligations.TransactionIndependentOfHistory : Prop :=
  ∀ (s s' t t' : State) (w : Word), s.cfg = s'.cfg → s.address = s'.address → s.status = .running → s'.status = .running →
    (presented s.input)[s.i]? = some w → (presented s'.input)[s'.i]? = some w → step s = .next t → step s' = .next t' →
    ∃ lines errors, t.out = s.out ++ lines ∧ t'.out = s'.out ++ lines ∧ t.diag = s.diag ++ errors ∧
      t'.diag = s'.diag ++ errors ∧ t.status = t'.status ∧ lines.length + errors.length = 1

/-- R26, R51, R271: no step changes the configuration or the input, or takes back a line or a diagnostic. -/
def Obligations.StepOnlyAppends : Prop :=
  ∀ s t : State, step s = .next t →
    t.cfg = s.cfg ∧ t.input = s.input ∧ s.out <+: t.out ∧ s.diag <+: t.diag ∧ s.i ≤ t.i

/-- R268, R94 (D22): under an accepted configuration no step ends but in a next state or in the stuck state of a finished run;
FormatterMismatch never arises, and no instruction faults or is refused. -/
def Obligations.FormatterMismatchNeverArises : Prop :=
  (∀ s : State, s.cfg.wf = true → safeOutcome (step s) = true) ∧
  (∀ s : State, step s ≠ .fault .formatterMismatch) ∧
  ∀ (ins : Instr) (s : State), (∀ r, exec ins s ≠ .fault r) ∧ ∀ r, exec ins s ≠ .refused r

/-- The listing invariant holds at the start of every run, at reset among them. -/
def Obligations.StartOfRunHasListing : Prop :=
  (∀ (cfg : Config) (input : List Word), cfg.wf = true → (startRun cfg input).ListingInv) ∧ State.reset.ListingInv

/-- R30, R32, R48, R271: the invariant every step keeps, from every state that has it: the two channels hold exactly the
results of the words presented so far, each evaluated on its own at its position's address, in input order. -/
def Obligations.StepKeepsListing : Prop :=
  ∀ s t : State, s.ListingInv → step s = .next t → t.ListingInv

/-- R31, R32, R48, R270, R275: a run of any finite input ends, within one step more than it has words, in a stopped state that
shows the listing: the transactions evaluated independently, cut at the first error under `abort`, in input order. That the
end takes a step of its own, hence the one step more (log 4), and that a stopped state is stuck in the fault `stopped` (log 5),
are the model's; `listing` writes the final lists as log 17 reads the rules. -/
def Obligations.EveryRunEndsInItsListing : Prop :=
  ∀ (cfg : Config) (input : List Word), cfg.wf = true →
    ∃ (k : Nat) (t : State), k ≤ input.length + 1 ∧ Host.Core.run Sys2Proof.core k (startRun cfg input) = .next t ∧
      t.status = .stopped ∧ t.observation = listing cfg input ∧ step t = .fault .stopped

/-- The host's placing of a word (log 3): the very next step of the placed state presents that word at the same address. -/
def Obligations.PlacedWordIsPresentedNext : Prop :=
  ∀ (s : State) (w : Word), s.cfg.wf = true → w ≠ sentinel →
    step (s.withFetchWord 32 w.toNat) = present w (s.withFetchWord 32 w.toNat) ∧
    (s.withFetchWord 32 w.toNat).address = s.address ∧ (s.withFetchWord 32 w.toNat).cfg = s.cfg

/-- R41 (D20, log 12): the byte-image wrapper reads back the words laid out in either byte order, and rejects exactly the
images that are no whole number of words. -/
def Obligations.ByteImageReadsBack : Prop :=
  (∀ (order : ByteOrder) (ws : List Word), wordsOfImage order (ws.flatMap (bytesOf order)) = .words ws) ∧
  ∀ (order : ByteOrder) (image : List Byte),
    (∃ n, wordsOfImage order image = .leftover n) ↔ image.length % 4 ≠ 0
end

