-- ==== Sys2Proof/Laws/Decode.lean ====
section
/-! SUPPORT. BFX reads slices, and DEC says the kind of outcome it gives. -/

namespace Sys2Proof

/-- BFX narrowed to its width is the word's slice (R60, R11). -/
theorem extract_setWidth (w : Word) (width offset : Nat) (h : width + offset ≤ 32) :
    (extract w width offset h).setWidth width = w.extractLsb' offset width := by
  apply BitVec.eq_of_toNat_eq
  have hw : 2 ^ width ≤ 2 ^ 32 := Nat.pow_le_pow_right (by decide) (by omega)
  have hlt : (w.toNat >>> offset) % 2 ^ width < 2 ^ 32 := lt_of_lt_of_le (Nat.mod_lt _ (by positivity)) hw
  simp only [extract, BitVec.toNat_setWidth, BitVec.toNat_ofNat, BitVec.extractLsb'_toNat, Nat.one_shiftLeft,
    Nat.and_two_pow_sub_one_eq_mod]
  rw [Nat.mod_eq_of_lt hlt, Nat.mod_mod]

@[simp] theorem opcodeOf_eq (w : Word) : opcodeOf w = w.extractLsb' 26 6 := extract_setWidth ..
@[simp] theorem functOf_eq (w : Word) : functOf w = w.extractLsb' 0 6 := extract_setWidth ..
@[simp] theorem sourceRegOf_eq (w : Word) : sourceRegOf w = w.extractLsb' 21 5 := extract_setWidth ..
@[simp] theorem targetRegOf_eq (w : Word) : targetRegOf w = w.extractLsb' 16 5 := extract_setWidth ..
@[simp] theorem destRegOf_eq (w : Word) : destRegOf w = w.extractLsb' 11 5 := extract_setWidth ..
@[simp] theorem shiftAmountOf_eq (w : Word) : shiftAmountOf w = w.extractLsb' 6 5 := extract_setWidth ..
@[simp] theorem immediateOf_eq (w : Word) : immediateOf w = w.extractLsb' 0 16 := extract_setWidth ..
@[simp] theorem targetAddressOf_eq (w : Word) : targetAddressOf w = w.extractLsb' 0 26 := extract_setWidth ..

/-- The fields DEC fills are the slices of the word (R64). -/
theorem registerFields_consistent (w : Word) : (registerFields w).consistent = true := by
  simp [registerFields, RegisterFields.consistent]

theorem immediateFields_consistent (w : Word) : (immediateFields w).consistent = true := by
  simp [immediateFields, ImmediateFields.consistent]

theorem jumpFields_consistent (w : Word) : (jumpFields w).consistent = true := by
  simp [jumpFields, JumpFields.consistent]

/-- A consistent record is the one DEC fills from its raw word. -/
theorem RegisterFields.eq_of_consistent {f : RegisterFields} (h : f.consistent = true) : f = registerFields f.raw := by
  cases f; simp_all [RegisterFields.consistent, registerFields]

theorem ImmediateFields.eq_of_consistent {f : ImmediateFields} (h : f.consistent = true) : f = immediateFields f.raw := by
  cases f; simp_all [ImmediateFields.consistent, immediateFields]

theorem JumpFields.eq_of_consistent {f : JumpFields} (h : f.consistent = true) : f = jumpFields f.raw := by
  cases f; simp_all [JumpFields.consistent, jumpFields]

/-- The two views of an instruction are in bijection (R14, log 11). -/
@[simp] theorem Instr.instr_form (ins : Instr) : ins.form.instr = ins := by cases ins <;> rfl

@[simp] theorem Instruction.form_instr (r : Instruction) : r.instr.form = r := by
  rcases r with ⟨m, f⟩ | ⟨m, f⟩ | ⟨m, f⟩ <;> cases m <;> rfl

@[simp] theorem ofRegister_form (m : RMnem) (f : RegisterFields) : (Instr.ofRegister m f).form = .registerForm m f := by
  cases m <;> rfl

@[simp] theorem ofImmediate_form (m : IMnem) (f : ImmediateFields) : (Instr.ofImmediate m f).form = .immediateForm m f := by
  cases m <;> rfl

@[simp] theorem ofJump_form (m : JMnem) (f : JumpFields) : (Instr.ofJump m f).form = .jumpForm m f := by
  cases m <;> rfl

/-- DEC on an opcode-0 word (R70). -/
theorem decode_of_opcode_zero {cfg : Config} {w : Word} (h : w.extractLsb' 26 6 = 0) :
    decode cfg w = decodeByFunct cfg w := by
  rw [decode, opcodeOf_eq, if_pos h]

/-- DEC on an opcode-1 word (R71). -/
theorem decode_of_opcode_one {cfg : Config} {w : Word} (h : w.extractLsb' 26 6 = 1) :
    decode cfg w = decodeBranchPair w := by
  rw [decode, opcodeOf_eq, if_neg (by rw [h]; decide), if_pos h]

/-- DEC on any other word (R70). -/
theorem decode_of_opcode_other {cfg : Config} {w : Word} (h0 : w.extractLsb' 26 6 ≠ 0) (h1 : w.extractLsb' 26 6 ≠ 1) :
    decode cfg w = decodeByOpcode cfg w := by
  rw [decode, opcodeOf_eq, if_neg h0, if_neg h1]

/-- Everything DEC can answer (R70): one of the three errors or an instruction of one of the three shapes, with its reason. -/
theorem decode_cases (cfg : Config) (w : Word) :
    (w.extractLsb' 26 6 = 0 ∧ w.extractLsb' 0 6 = cfg.functMul ∧
      decode cfg w = .err { kind := .invalidMultiplyEncoding, word := w }) ∨
    (w.extractLsb' 26 6 = 0 ∧ w.extractLsb' 0 6 ≠ cfg.functMul ∧ cfg.functEntry (w.extractLsb' 0 6) = none ∧
      decode cfg w = .err { kind := .unrecognizedFunctionCode, word := w }) ∨
    (∃ m, w.extractLsb' 26 6 = 0 ∧ w.extractLsb' 0 6 ≠ cfg.functMul ∧ cfg.functEntry (w.extractLsb' 0 6) = some m ∧
      decode cfg w = .ok (.ofRegister (if m = .sll ∧ w = 0 then .nop else m) (registerFields w))) ∨
    (w.extractLsb' 26 6 = 1 ∧
      decode cfg w = .ok (.ofImmediate (if w.extractLsb' 16 5 ≠ 0 then .bgez else .bltz) (immediateFields w))) ∨
    (w.extractLsb' 26 6 ≠ 0 ∧ w.extractLsb' 26 6 ≠ 1 ∧ cfg.opcodeEntry (w.extractLsb' 26 6) = none ∧
      decode cfg w = .err { kind := .unrecognizedOpcode, word := w }) ∨
    (∃ m, w.extractLsb' 26 6 ≠ 0 ∧ w.extractLsb' 26 6 ≠ 1 ∧ cfg.opcodeEntry (w.extractLsb' 26 6) = some (.imm m) ∧
      decode cfg w = .ok (.ofImmediate m (immediateFields w))) ∨
    (∃ m, w.extractLsb' 26 6 ≠ 0 ∧ w.extractLsb' 26 6 ≠ 1 ∧ cfg.opcodeEntry (w.extractLsb' 26 6) = some (.jump m) ∧
      decode cfg w = .ok (.ofJump m (jumpFields w))) ∨
    (w.extractLsb' 26 6 ≠ 0 ∧ w.extractLsb' 26 6 ≠ 1 ∧ cfg.opcodeEntry (w.extractLsb' 26 6) = some .mul ∧
      decode cfg w = .ok (.ofRegister .mul (registerFields w))) := by
  by_cases h0 : w.extractLsb' 26 6 = 0
  · rw [decode_of_opcode_zero h0]
    by_cases hm : w.extractLsb' 0 6 = cfg.functMul
    · exact .inl ⟨h0, hm, by simp [decodeByFunct, hm]⟩
    · rcases he : cfg.functEntry (w.extractLsb' 0 6) with - | m
      · exact .inr (.inl ⟨h0, hm, rfl, by simp [decodeByFunct, hm, he]⟩)
      · exact .inr (.inr (.inl ⟨m, h0, hm, rfl, by simp [decodeByFunct, hm, he]⟩))
  · by_cases h1 : w.extractLsb' 26 6 = 1
    · rw [decode_of_opcode_one h1]
      exact .inr (.inr (.inr (.inl ⟨h1, by simp [decodeBranchPair]⟩)))
    · rw [decode_of_opcode_other h0 h1]
      rcases he : cfg.opcodeEntry (w.extractLsb' 26 6) with - | (m | m | -)
      · exact .inr (.inr (.inr (.inr (.inl ⟨h0, h1, rfl, by simp [decodeByOpcode, he]⟩))))
      · exact .inr (.inr (.inr (.inr (.inr (.inl ⟨m, h0, h1, rfl, by simp [decodeByOpcode, he]⟩)))))
      · exact .inr (.inr (.inr (.inr (.inr (.inr (.inl ⟨m, h0, h1, rfl, by simp [decodeByOpcode, he]⟩))))))
      · exact .inr (.inr (.inr (.inr (.inr (.inr (.inr ⟨h0, h1, rfl, by simp [decodeByOpcode, he]⟩))))))

end Sys2Proof
end

