-- ==== Sys2Proof/Laws/Config.lean ====
section
/-! SUPPORT. What a well-formed configuration gives (R77): its maps read forwards and backwards agree. -/

namespace Sys2Proof

/-- What a successful lookup lists. -/
theorem mem_of_lookup {α β : Type} [DecidableEq α] {l : List (α × β)} {a : α} {b : β} (h : l.lookup a = some b) :
    (a, b) ∈ l := by
  induction l with
  | nil => simp at h
  | cons e l ih =>
    obtain ⟨x, y⟩ := e
    rw [List.lookup_cons] at h
    by_cases hx : a = x
    · subst hx
      rw [beq_self_eq_true] at h
      simp [Option.some.inj h]
    · rw [beq_false_of_ne hx] at h
      exact List.mem_cons_of_mem _ (ih h)

/-- In a list with no key twice, an entry is what its key looks up. -/
theorem lookup_of_mem {α β : Type} [DecidableEq α] {l : List (α × β)} {a : α} {b : β} (hk : (l.map Prod.fst).Nodup)
    (h : (a, b) ∈ l) : l.lookup a = some b := by
  induction l with
  | nil => simp at h
  | cons e l ih =>
    obtain ⟨x, y⟩ := e
    rw [List.map_cons, List.nodup_cons] at hk
    rw [List.lookup_cons]
    rcases List.mem_cons.mp h with he | hm
    · simp_all
    · have hx : a ≠ x := by
        rintro rfl
        exact hk.1 (List.mem_map.mpr ⟨_, hm, rfl⟩)
      rw [beq_false_of_ne hx]
      exact ih hk.2 hm

/-- In a list with no value twice, the search for a value finds its entry. -/
theorem find_of_mem {α β : Type} [DecidableEq β] {l : List (α × β)} {a : α} {b : β} (hv : (l.map Prod.snd).Nodup)
    (h : (a, b) ∈ l) : l.find? (fun e => e.2 == b) = some (a, b) := by
  induction l with
  | nil => simp at h
  | cons e l ih =>
    obtain ⟨x, y⟩ := e
    rw [List.map_cons, List.nodup_cons] at hv
    rcases List.mem_cons.mp h with he | hm
    · obtain ⟨rfl, rfl⟩ := Prod.mk.inj he
      simp
    · have hy : y ≠ b := by
        rintro rfl
        exact hv.1 (List.mem_map.mpr ⟨_, hm, rfl⟩)
      simp [hy, ih hv.2 hm]

section
variable {cfg : Config} (h : cfg.wf = true)
include h

/-- The clauses of R77, as propositions. -/
theorem wf_clauses :
    ((cfg.opcodeMap.map Prod.fst).Nodup ∧ (cfg.functMap.map Prod.fst).Nodup) ∧
    ((cfg.opcodeMap.map Prod.snd).Nodup ∧ ∀ e ∈ cfg.opcodeMap, 2 ≤ e.1.toNat) ∧
    ((∀ e ∈ cfg.opcodeMap, e.2 ∈ opcodeRange) ∧ (∀ m ∈ opcodeRange, m ∈ cfg.opcodeMap.map Prod.snd) ∧
      cfg.opcodeEntry 8 = some (.imm .addiu)) ∧
    ((cfg.functMap.map Prod.snd).Nodup ∧ (∀ e ∈ cfg.functMap, e.2 ∈ functRange) ∧
      (∀ m ∈ functRange, m ∈ cfg.functMap.map Prod.snd)) ∧
    cfg.functEntry cfg.functMul = none ∧ cfg.functEntry 0 = some .sll := by
  simp only [Config.wf, Config.keysOk, Config.opcodeDomainOk, Config.opcodeRangeOk, Config.functMapOk, Config.functMulOk,
    Config.sllOk, Bool.and_eq_true, decide_eq_true_eq, List.all_eq_true] at h
  tauto

/-- A function code that selects `m` is the code of `m`. -/
theorem functFor_of_entry {fn : Code} {m : RMnem} (he : cfg.functEntry fn = some m) : cfg.functFor m = some fn := by
  rw [Config.functFor, find_of_mem (wf_clauses h).2.2.2.1.1 (mem_of_lookup he)]
  rfl

/-- An opcode that selects `m` is the opcode of `m`. -/
theorem opcodeFor_of_entry {op : Code} {m : OpcodeMnem} (he : cfg.opcodeEntry op = some m) : cfg.opcodeFor m = some op := by
  rw [Config.opcodeFor, find_of_mem (wf_clauses h).2.1.1 (mem_of_lookup he)]
  rfl

/-- A function code selects only a mnemonic of R77 (c). -/
theorem functEntry_mem {fn : Code} {m : RMnem} (he : cfg.functEntry fn = some m) : m ∈ functRange :=
  (wf_clauses h).2.2.2.1.2.1 _ (mem_of_lookup he)

/-- An opcode selects only a mnemonic of R77 (b). -/
theorem opcodeEntry_mem {op : Code} {m : OpcodeMnem} (he : cfg.opcodeEntry op = some m) : m ∈ opcodeRange :=
  (wf_clauses h).2.2.1.1 _ (mem_of_lookup he)

/-- Opcodes 0 and 1 keep their fixed roles (R77 (a)). -/
theorem opcodeEntry_ge_two {op : Code} {m : OpcodeMnem} (he : cfg.opcodeEntry op = some m) : 2 ≤ op.toNat :=
  (wf_clauses h).2.1.2 _ (mem_of_lookup he)

end

end Sys2Proof
end

