-- ==== Sys2Proof/Laws/Encode.lean ====
section
/-! SUPPORT. The slices of a word built from R63's format tables: each table's field stands where DEC reads it. -/

namespace Sys2Proof

section Register
variable (op : Code) (f : RegisterFields) (low : Code)

theorem encodeRegister_opcode : (encodeRegister op f low).extractLsb' 26 6 = op := by
  rw [encodeRegister]
  iterate 5 rw [BitVec.extractLsb'_append_eq_of_le (by omega)]
  exact BitVec.extractLsb'_eq_self

theorem encodeRegister_sourceReg : (encodeRegister op f low).extractLsb' 21 5 = f.sourceReg := by
  rw [encodeRegister]
  iterate 4 rw [BitVec.extractLsb'_append_eq_of_le (by omega)]
  rw [BitVec.extractLsb'_append_eq_of_add_le (by omega)]
  exact BitVec.extractLsb'_eq_self

theorem encodeRegister_targetReg : (encodeRegister op f low).extractLsb' 16 5 = f.targetReg := by
  rw [encodeRegister]
  iterate 3 rw [BitVec.extractLsb'_append_eq_of_le (by omega)]
  rw [BitVec.extractLsb'_append_eq_of_add_le (by omega)]
  exact BitVec.extractLsb'_eq_self

theorem encodeRegister_destReg : (encodeRegister op f low).extractLsb' 11 5 = f.destReg := by
  rw [encodeRegister]
  iterate 2 rw [BitVec.extractLsb'_append_eq_of_le (by omega)]
  rw [BitVec.extractLsb'_append_eq_of_add_le (by omega)]
  exact BitVec.extractLsb'_eq_self

theorem encodeRegister_shiftAmount : (encodeRegister op f low).extractLsb' 6 5 = f.shiftAmount := by
  rw [encodeRegister, BitVec.extractLsb'_append_eq_of_le (by omega), BitVec.extractLsb'_append_eq_of_add_le (by omega)]
  exact BitVec.extractLsb'_eq_self

theorem encodeRegister_low : (encodeRegister op f low).extractLsb' 0 6 = low := by
  rw [encodeRegister, BitVec.extractLsb'_append_eq_of_add_le (by omega)]
  exact BitVec.extractLsb'_eq_self

/-- DEC reads the fields back from a word built from the RegisterForm table. -/
theorem registerFields_encodeRegister :
    registerFields (encodeRegister op f low) = { f with raw := encodeRegister op f low } := by
  simp only [registerFields, sourceRegOf_eq, targetRegOf_eq, destRegOf_eq, shiftAmountOf_eq, encodeRegister_sourceReg,
    encodeRegister_targetReg, encodeRegister_destReg, encodeRegister_shiftAmount]
end Register

section Immediate
variable (op : Code) (f : ImmediateFields)

theorem encodeImmediate_opcode : (encodeImmediate op f).extractLsb' 26 6 = op := by
  rw [encodeImmediate]
  iterate 3 rw [BitVec.extractLsb'_append_eq_of_le (by omega)]
  exact BitVec.extractLsb'_eq_self

theorem encodeImmediate_sourceReg : (encodeImmediate op f).extractLsb' 21 5 = f.sourceReg := by
  rw [encodeImmediate]
  iterate 2 rw [BitVec.extractLsb'_append_eq_of_le (by omega)]
  rw [BitVec.extractLsb'_append_eq_of_add_le (by omega)]
  exact BitVec.extractLsb'_eq_self

theorem encodeImmediate_targetReg : (encodeImmediate op f).extractLsb' 16 5 = f.targetReg := by
  rw [encodeImmediate, BitVec.extractLsb'_append_eq_of_le (by omega), BitVec.extractLsb'_append_eq_of_add_le (by omega)]
  exact BitVec.extractLsb'_eq_self

theorem encodeImmediate_immediate : (encodeImmediate op f).extractLsb' 0 16 = f.immediate := by
  rw [encodeImmediate, BitVec.extractLsb'_append_eq_of_add_le (by omega)]
  exact BitVec.extractLsb'_eq_self

/-- DEC reads the fields back from a word built from the ImmediateForm table. -/
theorem immediateFields_encodeImmediate :
    immediateFields (encodeImmediate op f) = { f with raw := encodeImmediate op f } := by
  simp only [immediateFields, sourceRegOf_eq, targetRegOf_eq, immediateOf_eq, encodeImmediate_sourceReg,
    encodeImmediate_targetReg, encodeImmediate_immediate]
end Immediate

section Jump
variable (op : Code) (f : JumpFields)

theorem encodeJump_opcode : (encodeJump op f).extractLsb' 26 6 = op := by
  rw [encodeJump, BitVec.extractLsb'_append_eq_of_le (by omega)]
  exact BitVec.extractLsb'_eq_self

theorem encodeJump_targetAddress : (encodeJump op f).extractLsb' 0 26 = f.targetAddress := by
  rw [encodeJump, BitVec.extractLsb'_append_eq_of_add_le (by omega)]
  exact BitVec.extractLsb'_eq_self

/-- DEC reads the field back from a word built from the JumpForm table. -/
theorem jumpFields_encodeJump : jumpFields (encodeJump op f) = { f with raw := encodeJump op f } := by
  simp only [jumpFields, targetAddressOf_eq, encodeJump_targetAddress]
end Jump

end Sys2Proof
end

