-- ==== Sys2Proof/Laws/Mask.lean ====
section
/-! SUPPORT. A match under a mask of consecutive bits is a test of a slice. -/

namespace Sys2Proof

/-- Masking with `width` ones at `offset` keeps the slice, in place. -/
theorem and_mask (w m : Word) (offset width : Nat) (hm : m = (BitVec.allOnes width).setWidth 32 <<< offset) :
    w &&& m = (w.extractLsb' offset width).setWidth 32 <<< offset := by
  subst hm
  ext i hi
  by_cases h : i < offset
  · simp [h]
  · by_cases h2 : i - offset < width
    · simp [h, h2, BitVec.getElem_setWidth]
      rw [BitVec.getElem_eq_testBit_toNat, BitVec.getLsbD]
      congr 1
      omega
    · simp [h, h2, BitVec.getElem_setWidth]

/-- A mask of two separate pieces tests both. -/
theorem and_or_mask (w a b : Word) : w &&& (a ||| b) = (w &&& a) ||| (w &&& b) := by
  ext i hi
  simp [Bool.and_or_distrib_left]

end Sys2Proof
end

