-- ==== Sys2Proof/Laws/PerInstr.lean ====
section
/-! SUPPORT. Per instruction: the word of a well-formed instruction, built from the format tables of R63, is its raw word. -/

namespace Sys2Proof.Laws.EncodesRaw

/-- R63's RegisterForm table rebuilds a word from its slices. -/
theorem register_slices (w : Word) :
    encodeRegister (w.extractLsb' 26 6) (registerFields w) (w.extractLsb' 0 6) = w := by
  simp only [encodeRegister, registerFields, sourceRegOf_eq, targetRegOf_eq, destRegOf_eq, shiftAmountOf_eq]
  iterate 5 rw [BitVec.extractLsb'_append_extractLsb'_eq_extractLsb' (by omega)]
  exact BitVec.extractLsb'_eq_self

/-- R63's ImmediateForm table rebuilds a word from its slices. -/
theorem immediate_slices (w : Word) : encodeImmediate (w.extractLsb' 26 6) (immediateFields w) = w := by
  simp only [encodeImmediate, immediateFields, sourceRegOf_eq, targetRegOf_eq, immediateOf_eq]
  iterate 3 rw [BitVec.extractLsb'_append_extractLsb'_eq_extractLsb' (by omega)]
  exact BitVec.extractLsb'_eq_self

/-- R63's JumpForm table rebuilds a word from its slices. -/
theorem jump_slices (w : Word) : encodeJump (w.extractLsb' 26 6) (jumpFields w) = w := by
  simp only [encodeJump, jumpFields, targetAddressOf_eq]
  rw [BitVec.extractLsb'_append_extractLsb'_eq_extractLsb' (by omega)]
  exact BitVec.extractLsb'_eq_self

/-- The word of a well-formed instruction is its raw word. -/
def Statement (ins : Instr) : Prop := ∀ cfg : Config, cfg.wf = true → ins.wf cfg = true → encode cfg ins = some ins.raw

/-- A function-dispatched instruction. -/
theorem byFunct {cfg : Config} (hc : cfg.wf = true) {m : RMnem} {f : RegisterFields} (hf : f.byFunct cfg m = true) :
    encodeByFunct cfg m f = some f.raw := by
  simp only [RegisterFields.byFunct, Bool.and_eq_true, beq_iff_eq] at hf
  obtain ⟨⟨⟨hs, ho⟩, -⟩, he⟩ := hf
  rw [encodeByFunct, functFor_of_entry hc he, Option.map_some, ← ho]
  conv_lhs => rw [RegisterFields.eq_of_consistent hs]
  exact congrArg some (register_slices f.raw)

/-- An opcode-dispatched ImmediateForm instruction. -/
theorem byOpcode {cfg : Config} (hc : cfg.wf = true) {m : IMnem} {f : ImmediateFields}
    (hf : (f.consistent && Sys2Proof.byOpcode cfg (.imm m) f.raw) = true) : encodeByOpcode cfg m f = some f.raw := by
  simp only [Sys2Proof.byOpcode, Bool.and_eq_true, beq_iff_eq] at hf
  obtain ⟨hs, -, he⟩ := hf
  rw [encodeByOpcode, opcodeFor_of_entry hc he, Option.map_some]
  conv_lhs => rw [ImmediateFields.eq_of_consistent hs]
  exact congrArg some (immediate_slices f.raw)

/-- An opcode-1 instruction. -/
theorem branchPair {f : ImmediateFields} (hs : f.consistent = true) (ho : f.raw.extractLsb' 26 6 = 1) :
    some (encodeImmediate 1 f) = some f.raw := by
  rw [← ho]
  conv_lhs => rw [ImmediateFields.eq_of_consistent hs]
  exact congrArg some (immediate_slices f.raw)

/-- A JumpForm instruction. -/
theorem jumpByOpcode {cfg : Config} (hc : cfg.wf = true) {m : JMnem} {f : JumpFields}
    (hf : (f.consistent && Sys2Proof.byOpcode cfg (.jump m) f.raw) = true) : encodeJumpByOpcode cfg m f = some f.raw := by
  simp only [Sys2Proof.byOpcode, Bool.and_eq_true, beq_iff_eq] at hf
  obtain ⟨hs, -, he⟩ := hf
  rw [encodeJumpByOpcode, opcodeFor_of_entry hc he, Option.map_some]
  conv_lhs => rw [JumpFields.eq_of_consistent hs]
  exact congrArg some (jump_slices f.raw)

theorem add (f : RegisterFields) : Statement (.add f) := fun _ hc hf => byFunct hc hf

theorem addu (f : RegisterFields) : Statement (.addu f) := fun _ hc hf => byFunct hc hf

theorem and (f : RegisterFields) : Statement (.and f) := fun _ hc hf => byFunct hc hf

theorem mul (f : RegisterFields) : Statement (.mul f) := by
  intro cfg hc hf
  simp only [Instr.wf, Sys2Proof.byOpcode, Bool.and_eq_true, beq_iff_eq] at hf
  obtain ⟨hs, -, he⟩ := hf
  rw [encode, opcodeFor_of_entry hc he, Option.map_some]
  conv_lhs => rw [RegisterFields.eq_of_consistent hs]
  exact congrArg some (register_slices f.raw)

theorem slt (f : RegisterFields) : Statement (.slt f) := fun _ hc hf => byFunct hc hf

theorem sub (f : RegisterFields) : Statement (.sub f) := fun _ hc hf => byFunct hc hf

theorem sll (f : RegisterFields) : Statement (.sll f) := fun _ hc hf =>
  byFunct hc (by simp only [Instr.wf, Bool.and_eq_true] at hf; exact hf.1)

theorem sra (f : RegisterFields) : Statement (.sra f) := fun _ hc hf => byFunct hc hf

theorem jr (f : RegisterFields) : Statement (.jr f) := fun _ hc hf => byFunct hc hf

theorem jalr (f : RegisterFields) : Statement (.jalr f) := fun _ hc hf => byFunct hc hf

theorem syscall (f : RegisterFields) : Statement (.syscall f) := fun _ hc hf => byFunct hc hf

theorem nop (f : RegisterFields) : Statement (.nop f) := by
  intro cfg _ hf
  simp only [Instr.wf, Bool.and_eq_true, beq_iff_eq] at hf
  exact congrArg some hf.2.symm

theorem addi (f : ImmediateFields) : Statement (.addi f) := fun _ hc hf => byOpcode hc hf

theorem addiu (f : ImmediateFields) : Statement (.addiu f) := fun _ hc hf => byOpcode hc hf

theorem andi (f : ImmediateFields) : Statement (.andi f) := fun _ hc hf => byOpcode hc hf

theorem ori (f : ImmediateFields) : Statement (.ori f) := fun _ hc hf => byOpcode hc hf

theorem lui (f : ImmediateFields) : Statement (.lui f) := fun _ hc hf => byOpcode hc hf

theorem lb (f : ImmediateFields) : Statement (.lb f) := fun _ hc hf => byOpcode hc hf

theorem lw (f : ImmediateFields) : Statement (.lw f) := fun _ hc hf => byOpcode hc hf

theorem sb (f : ImmediateFields) : Statement (.sb f) := fun _ hc hf => byOpcode hc hf

theorem sw (f : ImmediateFields) : Statement (.sw f) := fun _ hc hf => byOpcode hc hf

theorem beq (f : ImmediateFields) : Statement (.beq f) := fun _ hc hf => byOpcode hc hf

theorem bne (f : ImmediateFields) : Statement (.bne f) := fun _ hc hf => byOpcode hc hf

theorem blez (f : ImmediateFields) : Statement (.blez f) := fun _ hc hf => byOpcode hc hf

theorem bgtz (f : ImmediateFields) : Statement (.bgtz f) := fun _ hc hf => byOpcode hc hf

theorem bltz (f : ImmediateFields) : Statement (.bltz f) := by
  intro cfg _ hf
  simp only [Instr.wf, Bool.and_eq_true, beq_iff_eq] at hf
  exact branchPair hf.1.1 hf.1.2

theorem bgez (f : ImmediateFields) : Statement (.bgez f) := by
  intro cfg _ hf
  simp only [Instr.wf, Bool.and_eq_true, beq_iff_eq] at hf
  exact branchPair hf.1.1 hf.1.2

theorem j (f : JumpFields) : Statement (.j f) := fun _ hc hf => jumpByOpcode hc hf

theorem jal (f : JumpFields) : Statement (.jal f) := fun _ hc hf => jumpByOpcode hc hf

end Sys2Proof.Laws.EncodesRaw
end

