-- ==== Sys2Proof/Laws/State.lean ====
section
/-! SUPPORT. One lemma per field per update of State, true by rfl. -/

namespace Sys2Proof.Machine

section EmitLine
variable (l : Text) (s : State)
@[simp] theorem emitLine_cfg : (s.emitLine l).cfg = s.cfg := rfl
@[simp] theorem emitLine_input : (s.emitLine l).input = s.input := rfl
@[simp] theorem emitLine_i : (s.emitLine l).i = s.i + 1 := rfl
@[simp] theorem emitLine_status : (s.emitLine l).status = s.status := rfl
@[simp] theorem emitLine_out : (s.emitLine l).out = s.out ++ [l] := rfl
@[simp] theorem emitLine_diag : (s.emitLine l).diag = s.diag := rfl
end EmitLine

section TakeError
variable (e : DecodeError) (s : State)
@[simp] theorem takeError_cfg : (s.takeError e).cfg = s.cfg := rfl
@[simp] theorem takeError_input : (s.takeError e).input = s.input := rfl
@[simp] theorem takeError_i : (s.takeError e).i = s.i + 1 := rfl
@[simp] theorem takeError_out : (s.takeError e).out = s.out := rfl
@[simp] theorem takeError_diag : (s.takeError e).diag = s.diag ++ [(e.kind, e.word)] := rfl
@[simp] theorem takeError_status :
    (s.takeError e).status = if s.cfg.onError = .abort then .stopped else s.status := rfl
end TakeError

section Stop
variable (s : State)
@[simp] theorem stop_cfg : s.stop.cfg = s.cfg := rfl
@[simp] theorem stop_input : s.stop.input = s.input := rfl
@[simp] theorem stop_i : s.stop.i = s.i := rfl
@[simp] theorem stop_status : s.stop.status = .stopped := rfl
@[simp] theorem stop_out : s.stop.out = s.out := rfl
@[simp] theorem stop_diag : s.stop.diag = s.diag := rfl
end Stop

section StartRun
variable (cfg : Config) (ws : List Word)
@[simp] theorem startRun_cfg : (startRun cfg ws).cfg = cfg := rfl
@[simp] theorem startRun_input : (startRun cfg ws).input = ws := rfl
@[simp] theorem startRun_i : (startRun cfg ws).i = 0 := rfl
@[simp] theorem startRun_status : (startRun cfg ws).status = .running := rfl
@[simp] theorem startRun_out : (startRun cfg ws).out = [] := rfl
@[simp] theorem startRun_diag : (startRun cfg ws).diag = [] := rfl
end StartRun

section PlaceWord
variable (s : State) (w : Word)
@[simp] theorem placeWord_cfg : (s.placeWord w).cfg = s.cfg := rfl
@[simp] theorem placeWord_i : (s.placeWord w).i = s.i := rfl
@[simp] theorem placeWord_status : (s.placeWord w).status = .running := rfl
@[simp] theorem placeWord_out : (s.placeWord w).out = s.out := rfl
@[simp] theorem placeWord_diag : (s.placeWord w).diag = s.diag := rfl
end PlaceWord

/-- The reset state is the start of a run on nothing. -/
theorem reset_eq_startRun : State.reset = startRun Config.default [] := rfl

end Sys2Proof.Machine
end

