-- ==== Sys2Proof/Laws/Step.lean ====
section
/-! SUPPORT. What an instruction and a step can do, said once. -/

namespace Sys2Proof.Machine

/-- The shared operation of the meanings always gives a next state: the line emitted. -/
theorem printLine_next (raw : Word) (m : Mnem) (ops : List Text) (s : State) :
    printLine raw m ops s = .next (s.emitLine (lineText s.cfg s.address raw m ops)) := rfl

/-- Every instruction emits one line and does nothing else. -/
theorem exec_emits (ins : Instr) (s : State) : ∃ l, exec ins s = .next (s.emitLine l) := by
  cases ins <;> exact ⟨_, rfl⟩

/-- Everything an instruction can do: if it answers `t`, then `t` is the state with one line emitted. -/
theorem exec_next {ins : Instr} {s t : State} (h : exec ins s = .next t) : ∃ l, t = s.emitLine l := by
  obtain ⟨l, hl⟩ := exec_emits ins s
  exact ⟨l, by rw [hl] at h; exact (Host.Outcome.next.inj h).symm⟩

/-- A step of a state whose configuration R77 rejects. -/
theorem step_of_illFormed {s : State} (h : s.cfg.wf = false) : step s = .refused .illFormedConfiguration := by
  simp [step, environmentStep, h]

/-- A step of a stopped environment. -/
theorem step_of_stopped {s : State} (hw : s.cfg.wf = true) (h : s.status = .stopped) : step s = .fault .stopped := by
  simp [step, environmentStep, hw, h]

/-- A step at the end of the input. -/
theorem step_of_end {s : State} (hw : s.cfg.wf = true) (h : s.status = .running) (hn : s.nextWord = none) :
    step s = .next s.stop := by
  simp [step, environmentStep, hw, h, hn]

/-- A step that presents a word. -/
theorem step_of_word {s : State} {w : Word} (hw : s.cfg.wf = true) (h : s.status = .running) (hn : s.nextWord = some w) :
    step s = present w s := by
  simp [step, environmentStep, hw, h, hn]

/-- Presenting a word that decodes. -/
theorem present_of_ok {s : State} {w : Word} {ins : Instr} (h : decode s.cfg w = .ok ins) : present w s = exec ins s := by
  simp [present, h]

/-- Presenting a word that does not. -/
theorem present_of_err {s : State} {w : Word} {e : DecodeError} (h : decode s.cfg w = .err e) :
    present w s = .next (s.takeError e) := by
  simp [present, h]

/-- Everything a step can do: if it answers `t`, the configuration is accepted, the environment runs, and `t` is the
stopped state at the end of the input, the state with the decoded word's line emitted, or the state with its error taken. -/
theorem step_next {s t : State} (h : step s = .next t) :
    s.cfg.wf = true ∧ s.status = .running ∧
    ((s.nextWord = none ∧ t = s.stop) ∨
     (∃ w ins l, s.nextWord = some w ∧ decode s.cfg w = .ok ins ∧ exec ins s = .next t ∧ t = s.emitLine l) ∨
     (∃ w e, s.nextWord = some w ∧ decode s.cfg w = .err e ∧ t = s.takeError e)) := by
  cases hw : s.cfg.wf with
  | false => rw [step_of_illFormed hw] at h; cases h
  | true =>
    cases hs : s.status with
    | stopped => rw [step_of_stopped hw hs] at h; cases h
    | running =>
      refine ⟨rfl, rfl, ?_⟩
      cases hn : s.nextWord with
      | none =>
        rw [step_of_end hw hs hn] at h
        exact .inl ⟨rfl, (Host.Outcome.next.inj h).symm⟩
      | some w =>
        rw [step_of_word hw hs hn] at h
        cases hd : decode s.cfg w with
        | ok ins =>
          rw [present_of_ok hd] at h
          obtain ⟨l, hl⟩ := exec_next h
          exact .inr (.inl ⟨w, ins, l, rfl, hd, h, hl⟩)
        | err e =>
          rw [present_of_err hd] at h
          exact .inr (.inr ⟨w, e, rfl, hd, (Host.Outcome.next.inj h).symm⟩)

end Sys2Proof.Machine
end

