-- ==== Sys2Proof/Laws/Run.lean ====
section
/-! SUPPORT. The listing of a run, built word by word. -/

namespace Sys2Proof.Machine

@[simp] theorem linesOf_append (a b : List Result) : linesOf (a ++ b) = linesOf a ++ linesOf b := List.filterMap_append
@[simp] theorem errorsOf_append (a b : List Result) : errorsOf (a ++ b) = errorsOf a ++ errorsOf b := List.filterMap_append
@[simp] theorem linesOf_line (l : Text) : linesOf [.line l] = [l] := rfl
@[simp] theorem linesOf_error (k : DecodeErrorKind) (w : Word) : linesOf [.error k w] = [] := rfl
@[simp] theorem errorsOf_line (l : Text) : errorsOf [.line l] = [] := rfl
@[simp] theorem errorsOf_error (k : DecodeErrorKind) (w : Word) : errorsOf [.error k w] = [(k, w)] := rfl

/-- The transaction of a word that decodes. -/
theorem transaction_of_ok {cfg : Config} {a w : Word} {ins : Instr} (h : decode cfg w = .ok ins) :
    transaction cfg a w = .line (format cfg a ins.form) := by
  simp [transaction, h]

/-- The transaction of a word that does not. -/
theorem transaction_of_err {cfg : Config} {a w : Word} {e : DecodeError} (h : decode cfg w = .err e) :
    transaction cfg a w = .error e.kind e.word := by
  simp [transaction, h]

/-- A run goes on from the state its first step gives, for any machine behind the host's interface. -/
theorem run_of_step (M : Host.Core) (k : Nat) (s t : M.State) (h : M.step s = .next t) : M.run (k + 1) s = M.run k t := by
  rw [Host.Core.run, h]

/-- The same for this machine. -/
theorem run_of_next {k : Nat} {s t : State} (h : step s = .next t) :
    Host.Core.run Sys2Proof.core (k + 1) s = Host.Core.run Sys2Proof.core k t :=
  run_of_step Sys2Proof.core k s t h

/-- One more word gives one more result. -/
theorem results_take_succ {cfg : Config} {ws : List Word} {n : Nat} {w : Word} (h : ws[n]? = some w) :
    results cfg (ws.take (n + 1)) = results cfg (ws.take n) ++ [transaction cfg (addressAt cfg.base n) w] := by
  obtain ⟨hn, -⟩ := List.getElem?_eq_some_iff.mp h
  rw [List.take_add_one, h, Option.toList_some, results, List.mapIdx_append]
  simp [results, Nat.min_eq_left (Nat.le_of_lt hn)]

/-- Nothing is cut where there is no error. -/
theorem untilError_of_no_error {rs : List Result} (h : errorsOf rs = []) : untilError rs = rs := by
  induction rs with
  | nil => rfl
  | cons r rs ih =>
    cases r with
    | line l => rw [untilError, ih (by simpa [errorsOf] using h)]
    | error k w => simp [errorsOf] at h

/-- The cut falls at the first error. -/
theorem untilError_append_error {rs : List Result} (h : errorsOf rs = []) (k : DecodeErrorKind) (w : Word) (rest : List Result) :
    untilError (rs ++ .error k w :: rest) = rs ++ [.error k w] := by
  induction rs with
  | nil => rfl
  | cons r rs ih =>
    cases r with
    | line l => rw [List.cons_append, untilError, ih (by simpa [errorsOf] using h)]; rfl
    | error k w => simp [errorsOf] at h

end Sys2Proof.Machine
end

