-- ==== Sys2Proof/Laws/Text.lean ====
section
/-! SUPPORT. The text primitives: `dec` by its digits, and the shape of `hex8`. -/

namespace Sys2Proof.Machine

/-- More fuel than the value changes nothing. -/
theorem decDigits_fuel : ∀ (a b n : Nat), n < a → n < b → decDigits a n = decDigits b n
  | 0, _, _, h, _ => absurd h (by omega)
  | _ + 1, 0, _, _, h => absurd h (by omega)
  | a + 1, b + 1, n, ha, hb => by
    by_cases hn : n < 10
    · simp [decDigits, hn]
    · simp only [decDigits, if_neg hn]
      rw [decDigits_fuel a b (n / 10) (by omega) (by omega)]

/-- A one-digit number. -/
theorem dec_of_lt {n : Nat} (h : n < 10) : dec n = [Nat.digitChar n] := by simp [dec, decDigits, h]

/-- A longer number: the digits of its quotient by ten, then its last digit. -/
theorem dec_of_ge {n : Nat} (h : 10 ≤ n) : dec n = dec (n / 10) ++ [Nat.digitChar (n % 10)] := by
  have hn : ¬ n < 10 := by omega
  simp only [dec, decDigits, if_neg hn]
  rw [decDigits_fuel n (n / 10 + 1) (n / 10) (by omega) (by omega)]
  simp [decDigits]

/-- A decimal spelling is never empty. -/
theorem dec_ne_nil (n : Nat) : dec n ≠ [] := by
  by_cases h : n < 10
  · simp [dec_of_lt h]
  · simp [dec_of_ge (by omega : 10 ≤ n)]

/-- `hex8` is ten characters long: `0x` and eight digits. -/
theorem hex8_length (v : Word) : (hex8 v).length = 10 := rfl

end Sys2Proof.Machine
end

