-- ==== Sys2Proof/Tests/Slice0.lean ====
section
/-! SUPPORT. The model's own tests. Expected results come from spec/95_test_vectors.md and the rules it cites; the words are
written out field by field from 30_encoding.md R63 and the default tables of R72 and R73. The last part holds, for each
statement with hypotheses, a witness that meets them. -/

open Sys2Proof Sys2Proof.Machine Sys2Proof.Slice0

namespace Sys2Proof.Tests

/-- The state before the test steps: the default configuration, `ws` still to present. -/
def start (ws : List Word) : State := startRun Config.default ws

/-- The default configuration under the other policy. -/
def skipping : Config := { Config.default with onError := .skip }

/-- The state an outcome gives, if any. -/
def after : Host.Outcome State Fault Refusal → Option State
  | .next t => some t
  | .fault _ => none
  | .refused _ => none

/-! ### Decoding and text, one of each per instruction (95_test_vectors.md 2.2 to 2.8) -/

theorem test_decode_add : decode Config.default (0b000000#6 ++ 0b00001#5 ++ 0b00010#5 ++ 0b00011#5 ++ 0b00000#5 ++ 0b100000#6) =
    .ok (.add ⟨1, 2, 3, 0, 0x00221820⟩) := by decide

theorem test_text_add : transaction Config.default 0x00400000 0x00221820 =
    .line "[0x00400000] 0x00221820 add $3, $1, $2\n".toList := by decide

theorem test_decode_addu : decode Config.default (0b000000#6 ++ 0b01001#5 ++ 0b01010#5 ++ 0b01000#5 ++ 0b00000#5 ++ 0b100001#6) =
    .ok (.addu ⟨9, 10, 8, 0, 0x012A4021⟩) := by decide

theorem test_text_addu : transaction Config.default 0x00400000 0x012A4021 =
    .line "[0x00400000] 0x012a4021 addu $8, $9, $10\n".toList := by decide

theorem test_decode_and : decode Config.default (0b000000#6 ++ 0b00101#5 ++ 0b00110#5 ++ 0b00100#5 ++ 0b00000#5 ++ 0b100100#6) =
    .ok (.and ⟨5, 6, 4, 0, 0x00A62024⟩) := by decide

theorem test_text_and : transaction Config.default 0x00400000 0x00A62024 =
    .line "[0x00400000] 0x00a62024 and $4, $5, $6\n".toList := by decide

theorem test_decode_mul : decode Config.default (0b011100#6 ++ 0b00100#5 ++ 0b00101#5 ++ 0b00010#5 ++ 0b00000#5 ++ 0b111111#6) =
    .ok (.mul ⟨4, 5, 2, 0, 0x7085103F⟩) := by decide

theorem test_text_mul : transaction Config.default 0x00400000 0x7085103F =
    .line "[0x00400000] 0x7085103f mul $2, $4, $5\n".toList := by decide

theorem test_decode_slt : decode Config.default (0b000000#6 ++ 0b00010#5 ++ 0b00011#5 ++ 0b00001#5 ++ 0b00000#5 ++ 0b101010#6) =
    .ok (.slt ⟨2, 3, 1, 0, 0x0043082A⟩) := by decide

theorem test_text_slt : transaction Config.default 0x00400000 0x0043082A =
    .line "[0x00400000] 0x0043082a slt $1, $2, $3\n".toList := by decide

theorem test_decode_sub : decode Config.default (0b000000#6 ++ 0b01000#5 ++ 0b01001#5 ++ 0b00111#5 ++ 0b00000#5 ++ 0b100010#6) =
    .ok (.sub ⟨8, 9, 7, 0, 0x01093822⟩) := by decide

theorem test_text_sub : transaction Config.default 0x00400000 0x01093822 =
    .line "[0x00400000] 0x01093822 sub $7, $8, $9\n".toList := by decide

theorem test_decode_sll : decode Config.default (0b000000#6 ++ 0b00001#5 ++ 0b00000#5 ++ 0b00000#5 ++ 0b00000#5 ++ 0b000000#6) =
    .ok (.sll ⟨1, 0, 0, 0, 0x00200000⟩) := by decide

theorem test_text_sll : transaction Config.default 0x00400000 0x00200000 =
    .line "[0x00400000] 0x00200000 sll $0, $0, 0\n".toList := by decide

theorem test_decode_sra : decode Config.default (0b000000#6 ++ 0b00111#5 ++ 0b00011#5 ++ 0b00010#5 ++ 0b00001#5 ++ 0b000011#6) =
    .ok (.sra ⟨7, 3, 2, 1, 0x00E31043⟩) := by decide

theorem test_text_sra : transaction Config.default 0x00400000 0x00E31043 =
    .line "[0x00400000] 0x00e31043 sra $2, $3, 1\n".toList := by decide

theorem test_decode_jr : decode Config.default (0b000000#6 ++ 0b11111#5 ++ 0b00001#5 ++ 0b00010#5 ++ 0b00011#5 ++ 0b001000#6) =
    .ok (.jr ⟨31, 1, 2, 3, 0x03E110C8⟩) := by decide

theorem test_text_jr : transaction Config.default 0x00400000 0x03E110C8 =
    .line "[0x00400000] 0x03e110c8 jr $31\n".toList := by decide

theorem test_decode_jalr : decode Config.default (0b000000#6 ++ 0b00100#5 ++ 0b00000#5 ++ 0b11111#5 ++ 0b00000#5 ++ 0b001001#6) =
    .ok (.jalr ⟨4, 0, 31, 0, 0x0080F809⟩) := by decide

theorem test_text_jalr : transaction Config.default 0x00400000 0x0080F809 =
    .line "[0x00400000] 0x0080f809 jalr $31, $4\n".toList := by decide

theorem test_decode_syscall : decode Config.default (0b000000#6 ++ 0b00001#5 ++ 0b00010#5 ++ 0b00011#5 ++ 0b00100#5 ++ 0b001100#6) =
    .ok (.syscall ⟨1, 2, 3, 4, 0x0022190C⟩) := by decide

theorem test_text_syscall : transaction Config.default 0x00400000 0x0022190C =
    .line "[0x00400000] 0x0022190c syscall\n".toList := by decide

theorem test_decode_nop : decode Config.default (0b000000#6 ++ 0b00000#5 ++ 0b00000#5 ++ 0b00000#5 ++ 0b00000#5 ++ 0b000000#6) =
    .ok (.nop ⟨0, 0, 0, 0, 0x00000000⟩) := by decide

theorem test_text_nop : transaction Config.default 0x00400000 0x00000000 =
    .line "[0x00400000] 0x00000000 nop\n".toList := by decide

theorem test_decode_addi : decode Config.default (0b001001#6 ++ 0b00000#5 ++ 0b00010#5 ++ 0b0000000000000001#16) =
    .ok (.addi ⟨0, 2, 0x0001, 0x24020001⟩) := by decide

theorem test_text_addi : transaction Config.default 0x00400000 0x24020001 =
    .line "[0x00400000] 0x24020001 addi $2, $0, 1\n".toList := by decide

theorem test_decode_addiu : decode Config.default (0b001000#6 ++ 0b11101#5 ++ 0b11101#5 ++ 0b1111111111111111#16) =
    .ok (.addiu ⟨29, 29, 0xFFFF, 0x23BDFFFF⟩) := by decide

theorem test_text_addiu : transaction Config.default 0x00400000 0x23BDFFFF =
    .line "[0x00400000] 0x23bdffff addiu $29, $29, 65535\n".toList := by decide

theorem test_decode_andi : decode Config.default (0b001100#6 ++ 0b00101#5 ++ 0b00100#5 ++ 0b1111111111111111#16) =
    .ok (.andi ⟨5, 4, 0xFFFF, 0x30A4FFFF⟩) := by decide

theorem test_text_andi : transaction Config.default 0x00400000 0x30A4FFFF =
    .line "[0x00400000] 0x30a4ffff andi $4, $5, 65535\n".toList := by decide

theorem test_decode_ori : decode Config.default (0b001101#6 ++ 0b00101#5 ++ 0b00100#5 ++ 0b0000000011111111#16) =
    .ok (.ori ⟨5, 4, 0x00FF, 0x34A400FF⟩) := by decide

theorem test_text_ori : transaction Config.default 0x00400000 0x34A400FF =
    .line "[0x00400000] 0x34a400ff ori $4, $5, 255\n".toList := by decide

theorem test_decode_lui : decode Config.default (0b001111#6 ++ 0b00111#5 ++ 0b00001#5 ++ 0b0001000000000000#16) =
    .ok (.lui ⟨7, 1, 0x1000, 0x3CE11000⟩) := by decide

theorem test_text_lui : transaction Config.default 0x00400000 0x3CE11000 =
    .line "[0x00400000] 0x3ce11000 lui $1, 4096\n".toList := by decide

theorem test_decode_lb : decode Config.default (0b100000#6 ++ 0b11101#5 ++ 0b01000#5 ++ 0b0000000000000001#16) =
    .ok (.lb ⟨29, 8, 0x0001, 0x83A80001⟩) := by decide

theorem test_text_lb : transaction Config.default 0x00400000 0x83A80001 =
    .line "[0x00400000] 0x83a80001 lb $8, 4($29)\n".toList := by decide

theorem test_decode_lw : decode Config.default (0b100011#6 ++ 0b00010#5 ++ 0b00011#5 ++ 0b0000000000000101#16) =
    .ok (.lw ⟨2, 3, 0x0005, 0x8C430005⟩) := by decide

theorem test_text_lw : transaction Config.default 0x00400000 0x8C430005 =
    .line "[0x00400000] 0x8c430005 lw $3, 20($2)\n".toList := by decide

theorem test_decode_sb : decode Config.default (0b101000#6 ++ 0b00100#5 ++ 0b01001#5 ++ 0b0000000000000010#16) =
    .ok (.sb ⟨4, 9, 0x0002, 0xA0890002⟩) := by decide

theorem test_text_sb : transaction Config.default 0x00400000 0xA0890002 =
    .line "[0x00400000] 0xa0890002 sb $9, 8($4)\n".toList := by decide

theorem test_decode_sw : decode Config.default (0b101011#6 ++ 0b11101#5 ++ 0b11111#5 ++ 0b1111111111111111#16) =
    .ok (.sw ⟨29, 31, 0xFFFF, 0xAFBFFFFF⟩) := by decide

theorem test_text_sw : transaction Config.default 0x00400000 0xAFBFFFFF =
    .line "[0x00400000] 0xafbfffff sw $31, 262140($29)\n".toList := by decide

theorem test_decode_beq : decode Config.default (0b000100#6 ++ 0b00001#5 ++ 0b00010#5 ++ 0b0000000000000011#16) =
    .ok (.beq ⟨1, 2, 0x0003, 0x10220003⟩) := by decide

theorem test_text_beq : transaction Config.default 0x00400000 0x10220003 =
    .line "[0x00400000] 0x10220003 beq $1, $2, 12\n".toList := by decide

theorem test_decode_bne : decode Config.default (0b000101#6 ++ 0b00001#5 ++ 0b00000#5 ++ 0b1111111111111111#16) =
    .ok (.bne ⟨1, 0, 0xFFFF, 0x1420FFFF⟩) := by decide

theorem test_text_bne : transaction Config.default 0x00400000 0x1420FFFF =
    .line "[0x00400000] 0x1420ffff bne $1, $0, 262140\n".toList := by decide

theorem test_decode_blez : decode Config.default (0b000110#6 ++ 0b00100#5 ++ 0b01001#5 ++ 0b0000000000000010#16) =
    .ok (.blez ⟨4, 9, 0x0002, 0x18890002⟩) := by decide

theorem test_text_blez : transaction Config.default 0x00400000 0x18890002 =
    .line "[0x00400000] 0x18890002 blez $4, 8\n".toList := by decide

theorem test_decode_bgtz : decode Config.default (0b000111#6 ++ 0b00100#5 ++ 0b00000#5 ++ 0b0000000000000000#16) =
    .ok (.bgtz ⟨4, 0, 0x0000, 0x1C800000⟩) := by decide

theorem test_text_bgtz : transaction Config.default 0x00400000 0x1C800000 =
    .line "[0x00400000] 0x1c800000 bgtz $4, 0\n".toList := by decide

theorem test_decode_bltz : decode Config.default (0b000001#6 ++ 0b00101#5 ++ 0b00000#5 ++ 0b0000000000000100#16) =
    .ok (.bltz ⟨5, 0, 0x0004, 0x04A00004⟩) := by decide

theorem test_text_bltz : transaction Config.default 0x00400000 0x04A00004 =
    .line "[0x00400000] 0x04a00004 bltz $5, 16\n".toList := by decide

theorem test_decode_bgez : decode Config.default (0b000001#6 ++ 0b00101#5 ++ 0b10001#5 ++ 0b0000000000000100#16) =
    .ok (.bgez ⟨5, 17, 0x0004, 0x04B10004⟩) := by decide

theorem test_text_bgez : transaction Config.default 0x00400000 0x04B10004 =
    .line "[0x00400000] 0x04b10004 bgez $5, 16\n".toList := by decide

theorem test_decode_j : decode Config.default (0b000010#6 ++ 0b00000000000000000100000000#26) =
    .ok (.j ⟨0x0000100, 0x08000100⟩) := by decide

theorem test_text_j : transaction Config.default 0x00400000 0x08000100 =
    .line "[0x00400000] 0x08000100 j 0x00000400\n".toList := by decide

theorem test_decode_jal : decode Config.default (0b000011#6 ++ 0b11111111111111111111111111#26) =
    .ok (.jal ⟨0x3FFFFFF, 0x0FFFFFFF⟩) := by decide

theorem test_text_jal : transaction Config.default 0xF0000000 0x0FFFFFFF =
    .line "[0xf0000000] 0x0fffffff jal 0x0ffffffc\n".toList := by decide

/-! ### Decode errors (95_test_vectors.md 2.9, 2.10) -/

theorem test_unrecognized_opcode : transaction Config.default 0 0xC0000000 = .error .unrecognizedOpcode 0xC0000000 := by decide

theorem test_sentinel_given_to_dec : decode Config.default sentinel = .err ⟨.unrecognizedOpcode, 0xFFFFFFFF⟩ := by decide

theorem test_unrecognized_function_code :
    transaction Config.default 0 0x00220018 = .error .unrecognizedFunctionCode 0x00220018 := by decide

theorem test_invalid_multiply : transaction Config.default 0 0x00031102 = .error .invalidMultiplyEncoding 0x00031102 := by decide

theorem test_other_functMul :
    transaction { Config.default with functMul := 0x18 } 0 0x00000002 = .error .unrecognizedFunctionCode 0x00000002 ∧
    transaction { Config.default with functMul := 0x18 } 0 0x00220018 = .error .invalidMultiplyEncoding 0x00220018 := by decide

/-! ### BFX (95_test_vectors.md 2.1) -/

theorem test_extract :
    extract 0x8C430005 6 26 (by decide) = 0x23 ∧ extract 0x8C430005 26 0 (by decide) = 0x0430005 ∧
    extract 0x8C430005 32 0 (by decide) = 0x8C430005 ∧ extract 0x8C430005 1 31 (by decide) = 1 ∧
    extract 0x8C430005 0 0 (by decide) = 0 ∧ extract 0xFFFFFFFF 5 21 (by decide) = 0x1F := by decide

/-! ### Well-formedness: each check refuses a term that breaks it alone (30_encoding.md R77; 95_test_vectors.md 2.10) -/

theorem test_default_wf : Config.default.wf = true := by decide

theorem test_keysOk_refuses : ({ Config.default with
    opcodeMap := (0x02, .imm .bltz) :: defaultOpcodeMap } : Config).keysOk = false := by decide

theorem test_opcodeDomainOk_refuses_opcode_one : ({ Config.default with
    opcodeMap := (0x01, .jump .j) :: defaultOpcodeMap.drop 1 } : Config).opcodeDomainOk = false := by decide

theorem test_opcodeDomainOk_refuses_repeat : ({ Config.default with
    opcodeMap := (0x3F, .mul) :: defaultOpcodeMap } : Config).opcodeDomainOk = false := by decide

theorem test_opcodeRangeOk_refuses_missing_addi : ({ Config.default with
    opcodeMap := defaultOpcodeMap.filter fun e => e.2 != .imm .addi } : Config).opcodeRangeOk = false := by decide

theorem test_opcodeRangeOk_refuses_bltz : ({ Config.default with
    opcodeMap := (0x3F, .imm .bltz) :: defaultOpcodeMap } : Config).opcodeRangeOk = false := by decide

theorem test_opcodeRangeOk_refuses_addiu_moved : ({ Config.default with
    opcodeMap := (0x08, .imm .addi) :: (0x09, .imm .addiu) ::
      defaultOpcodeMap.filter fun e => e.1 != 0x08 && e.1 != 0x09 } : Config).opcodeRangeOk = false := by decide

theorem test_functMapOk_refuses_missing_slt : ({ Config.default with
    functMap := defaultFunctMap.filter fun e => e.2 != .slt } : Config).functMapOk = false := by decide

theorem test_functMapOk_refuses_nop : ({ Config.default with
    functMap := (0x3F, .nop) :: defaultFunctMap } : Config).functMapOk = false := by decide

theorem test_functMapOk_refuses_repeat : ({ Config.default with
    functMap := (0x3F, .slt) :: defaultFunctMap } : Config).functMapOk = false := by decide

theorem test_functMulOk_refuses : ({ Config.default with
    functMap := (0x02, .add) :: defaultFunctMap.filter fun e => e.2 != .add } : Config).functMulOk = false := by decide

theorem test_sllOk_refuses : ({ Config.default with
    functMap := (0x01, .sll) :: defaultFunctMap.filter fun e => e.2 != .sll } : Config).sllOk = false := by decide

theorem test_instr_wf_accepts : (Instr.add ⟨1, 2, 3, 5, 0x00221960⟩).wf Config.default = true := by decide

theorem test_instr_wf_refuses_field : (Instr.add ⟨1, 2, 4, 0, 0x00221820⟩).wf Config.default = false := by decide

theorem test_instr_wf_refuses_mnemonic : (Instr.sub ⟨1, 2, 3, 0, 0x00221820⟩).wf Config.default = false := by decide

theorem test_instr_wf_refuses_zero_sll : (Instr.sll ⟨0, 0, 0, 0, 0⟩).wf Config.default = false := by decide

theorem test_instr_wf_refuses_nonzero_nop : (Instr.nop ⟨0, 0, 0, 1, 0x00000040⟩).wf Config.default = false := by decide

theorem test_instr_wf_refuses_bgez_zero : (Instr.bgez ⟨5, 0, 4, 0x04A00004⟩).wf Config.default = false := by decide

theorem test_instr_wf_refuses_bltz_nonzero : (Instr.bltz ⟨5, 1, 4, 0x04A10004⟩).wf Config.default = false := by decide

theorem test_instr_wf_refuses_immediate : (Instr.lw ⟨2, 3, 6, 0x8C430005⟩).wf Config.default = false := by decide

theorem test_instr_wf_refuses_target : (Instr.j ⟨0x101, 0x08000100⟩).wf Config.default = false := by decide

/-! ### The environment (95_test_vectors.md 2.11 and P3) -/

theorem test_empty_input_stops : after (step (start [])) = some { start [] with status := .stopped } := by decide

theorem test_sentinel_first : after (step (start [sentinel, 0])) = some { start [sentinel, 0] with status := .stopped } := by decide

theorem test_misaligned_base : listing { Config.default with base := 2 } [0, 0] =
    (["[0x00000002] 0x00000000 nop\n".toList, "[0x00000006] 0x00000000 nop\n".toList], []) := by decide

theorem test_address_wraps : addressAt 0x00400000 (0x3FF00000 - 1) = 0xFFFFFFFC ∧ addressAt 0x00400000 0x3FF00000 = 0 := by decide

theorem test_abort_cuts : listing Config.default [0, 0x28000000, 0x03E00008] =
    (["[0x00400000] 0x00000000 nop\n".toList], [(.unrecognizedOpcode, 0x28000000)]) := by decide

theorem test_skip_keeps_slot : listing skipping [0, 0x28000000, 0x03E00008] =
    (["[0x00400000] 0x00000000 nop\n".toList, "[0x00400008] 0x03e00008 jr $31\n".toList],
     [(.unrecognizedOpcode, 0x28000000)]) := by decide

theorem test_reset_runs_placed_word :
    (after (step (State.reset.withFetchWord 32 0x20020001))).map State.out =
      some ["[0x00400000] 0x20020001 addiu $2, $0, 1\n".toList] := by decide

/-- R41: the two byte orders of a wrapper. -/
theorem test_byte_orders :
    wordsOfImage .big [0x20, 0x02, 0x00, 0x01] = .words [0x20020001] ∧
    wordsOfImage .little [0x01, 0x00, 0x02, 0x20] = .words [0x20020001] ∧
    wordsOfImage .big [0x20, 0x02, 0x00] = .leftover 3 := by decide

/-! ### Witnesses: the hypotheses of each statement can be met -/

theorem witness_decode_ok : decode Config.default 0x8C430005 = .ok (.lw ⟨2, 3, 5, 0x8C430005⟩) := by decide

theorem witness_decode_err : decode Config.default 0x28000000 = .err ⟨.unrecognizedOpcode, 0x28000000⟩ := by decide

theorem witness_wf_instruction : Config.default.wf = true ∧ (Instr.bgez ⟨5, 17, 4, 0x04B10004⟩).wf Config.default = true := by
  decide

/-- ExtractIsShiftAndMask, at both ends of the precondition. -/
theorem witness_extract_bounds : 32 + 0 ≤ 32 ∧ 0 + 32 ≤ 32 := by decide

/-- DecodeFollowsDispatchAlgorithm: the three values it reads, on one word. -/
theorem witness_dispatch_fields : 35 = (0x8C430005#32).toNat / 2 ^ 26 ∧ 5 = (0x8C430005#32).toNat % 2 ^ 6 ∧
    3 = (0x8C430005#32).toNat / 2 ^ 16 % 2 ^ 5 := by decide

/-- OpcodeOneTieBreak, each clause at its bounds: rt 0, 1 and 31. -/
theorem witness_tie_break : (0x04A00004#32) = 1#6 ++ 5#5 ++ 0#5 ++ 4#16 ∧ (0x04A10004#32) = 1#6 ++ 5#5 ++ 1#5 ++ 4#16 ∧
    (0x07FFFFFF#32) = 1#6 ++ 31#5 ++ 31#5 ++ 0xFFFF#16 := by decide

/-- ZeroWordAloneIsNop: a word of its second clause and one of its last. -/
theorem witness_zero_word : (0x00200000#32) ≠ 0 ∧ (0x00200000#32).toNat / 2 ^ 26 = 0 ∧
    Config.default.functEntry (BitVec.ofNat 6 ((0x00200000#32).toNat % 2 ^ 6)) = some .sll ∧
    decode Config.default 0 = .ok (.nop ⟨0, 0, 0, 0, 0⟩) := by decide

/-- MulDispatchedByOpcodeAlone. -/
theorem witness_mul : Config.default.opcodeEntry 0x1C = some .mul ∧
    (0x700007FF#32) = 0x1C#6 ++ 0#5 ++ 0#5 ++ 0#5 ++ 31#5 ++ 63#6 := by decide

/-- FunctionDispatchRecord, each clause: a code in the map, FUNCT_MUL, and one in neither. -/
theorem witness_function_dispatch :
    (0x00221820#32) = 0#6 ++ 1#5 ++ 2#5 ++ 3#5 ++ 0#5 ++ 0x20#6 ∧ Config.default.functEntry 0x20 = some .add ∧
    (0x00221802#32) = 0#6 ++ 1#5 ++ 2#5 ++ 3#5 ++ 0#5 ++ 2#6 ∧ Config.default.functMul = 2 ∧
    (0x00000001#32) = 0#6 ++ 0#5 ++ 0#5 ++ 0#5 ++ 0#5 ++ 1#6 ∧ (1 : Code) ≠ Config.default.functMul ∧
    Config.default.functEntry 1 = none := by decide

/-- ImmediateDispatchRecord and JumpDispatchRecord. -/
theorem witness_opcode_dispatch :
    Config.default.opcodeEntry 0x23 = some (.imm .lw) ∧ (0x8C430005#32) = 0x23#6 ++ 2#5 ++ 3#5 ++ 5#16 ∧
    Config.default.opcodeEntry 0x02 = some (.jump .j) ∧ (0x08000100#32) = 0x02#6 ++ 0x100#26 := by decide

/-- DontCareBitsDoNotDispatch: two different words that agree in the bits dispatch reads. -/
theorem witness_dont_care : (0x00221820#32) ≠ 0x00221960 ∧
    (0x00221820#32).extractLsb' 26 6 = (0x00221960#32).extractLsb' 26 6 ∧
    (0x00221820#32).extractLsb' 0 6 = (0x00221960#32).extractLsb' 0 6 := by decide

/-- DefaultDecodeMatchesOpcodeTable: a row and a word of it. -/
theorem witness_table_row : (.i .bltz, 0x04000000, 0xFC1F0000) ∈ tableRows ∧ (0x04A00004#32) &&& 0xFC1F0000 = 0x04000000 := by decide

/-- AcceptedConfigurationsAreRule77s. -/
theorem witness_maps : (Config.default.opcodeMap.map Prod.fst).Nodup ∧ (Config.default.functMap.map Prod.fst).Nodup := by decide

/-- IllFormedConfigurationRefused: a state with such a configuration, and one without. -/
theorem witness_ill_formed : (startRun { Config.default with functMul := 0 } []).cfg.wf = false ∧ (start []).cfg.wf = true := by
  decide

/-- The statements about what is printed: an operand text that meets the hypothesis. -/
theorem witness_operand_text : " $3, $1, $2".toList =
    " ".toList ++ reg 3 ++ ", ".toList ++ reg 1 ++ ", ".toList ++ reg 2 := by decide

/-- InstructionFrame: an instruction that gives a next state. -/
theorem witness_exec_next : ∃ t, exec (.add ⟨1, 2, 3, 0, 0x00221820⟩) (start []) = .next t := ⟨_, rfl⟩

/-- LineDeterminesTransaction. -/
theorem witness_line : ∃ l, transaction Config.default 0x00400000 0x00000000 = .line l := ⟨_, rfl⟩

/-- StepRunsDecodedInstruction, EnvironmentStepDeliversTransaction, TransactionIndependentOfHistory and StepOnlyAppends:
two running states, with different pasts, that present one word at one address. -/
theorem witness_running_word :
    let s := start [0x8C430005]
    let s' := { start [0x8C430005] with out := ["x".toList], diag := [(.unrecognizedOpcode, 5)] }
    s.cfg.wf = true ∧ s.status = .running ∧ (presented s.input)[s.i]? = some 0x8C430005 ∧ s.cfg = s'.cfg ∧
    s.address = s'.address ∧ s'.status = .running ∧ (presented s'.input)[s'.i]? = some 0x8C430005 ∧
    (∃ t, step s = .next t) ∧ ∃ t, step s' = .next t :=
  ⟨by decide, rfl, by decide, rfl, rfl, rfl, by decide, ⟨_, rfl⟩, ⟨_, rfl⟩⟩

/-- EnvironmentStepDeliversTransaction, the other clauses: the end of the input, and a stopped environment. -/
theorem witness_end_and_stopped : (presented (start []).input)[(start []).i]? = none ∧
    ({ start [] with status := .stopped } : State).status = .stopped := by decide

/-- DecodeErrorIsTaken, under each policy. -/
theorem witness_error_taken : (presented (start [0x28000000]).input)[(start [0x28000000]).i]? = some 0x28000000 ∧
    (start [0x28000000]).cfg.onError = .abort ∧ (startRun skipping [0x28000000]).cfg.onError = .skip ∧
    (startRun skipping [0x28000000]).cfg.wf = true := by decide

/-- NothingAfterSentinelIsRead, each clause: a sentinel ahead, and a sentinel reached. -/
theorem witness_sentinel : (∀ w ∈ [(0#32)], w ≠ 0xFFFFFFFF) ∧ (start [0, sentinel, 1]).input = [0] ++ 0xFFFFFFFF :: [1] ∧
    [(0#32)].length ≤ ({ start [0, sentinel, 1] with i := 1 } : State).i := ⟨by simp, rfl, by decide⟩

/-- StepKeepsListing: the start of a run has the invariant, and steps. -/
theorem witness_listing : (start [0]).ListingInv ∧ ∃ t, step (start [0]) = .next t :=
  ⟨⟨by decide, by decide, rfl, rfl, fun _ _ => rfl, by decide⟩, ⟨_, rfl⟩⟩

/-- PlacedWordIsPresentedNext. -/
theorem witness_placed : State.reset.cfg.wf = true ∧ (0x20020001 : Word) ≠ sentinel := by decide

end Sys2Proof.Tests
end

section
/-! The text primitives of R12 determined: `dec` is the library's decimal digits, and the digits of `hex8` are those of the
word in base 16. -/

open Sys2Proof Sys2Proof.Machine Sys2Proof.Slice0

namespace Sys2Proof.Machine

/-! ### Decimal -/

/-- The model's decimal digits are the library's. -/
theorem dec_eq_toDigits (v : Nat) : dec v = Nat.toDigits 10 v := by
  induction v using Nat.strong_induction_on with
  | _ v ih =>
    rcases Nat.lt_or_ge v 10 with h | h
    · rw [dec_of_lt h, Nat.toDigits_of_lt_base h]
    · rw [dec_of_ge h, ih (v / 10) (by omega), Nat.toDigits_of_base_le (by decide) h]

/-- No leading zero but for zero itself (D9): the first digit of a longer number is that of its quotient, which is not zero. -/
theorem eq_zero_of_dec_head? {v : Nat} (h : (dec v).head? = some '0') : v = 0 := by
  induction v using Nat.strong_induction_on with
  | _ v ih =>
    rcases Nat.lt_or_ge v 10 with hv | hv
    · simpa [dec_of_lt hv] using h
    · rw [dec_of_ge hv, List.head?_append_of_ne_nil _ (dec_ne_nil _)] at h
      have hq : v / 10 = 0 := ih (v / 10) (by omega) h
      omega

/-- Decimal digit strings are read as the library reads them. -/
theorem decimalValue_eq_ofDigitChars (d : Text) : decimalValue d = Nat.ofDigitChars 10 d 0 := rfl

/-! ### Hexadecimal -/

/-- The digit is the one of the word's value in base 16 at that place. -/
theorem hexDigit_eq_digitChar (v : Word) (k : Nat) : hexDigit v k = Nat.digitChar (v.toNat / 16 ^ k % 16) := by
  have hpow : 2 ^ (4 * k) = 16 ^ k := Nat.pow_mul 2 4 k
  rw [hexDigit, BitVec.extractLsb'_toNat, Nat.shiftRight_eq_div_pow, hpow]

/-- Digits below 16 are spelled in lowercase (D10). -/
theorem digitChar_mem_lowercase : ∀ n < 16, Nat.digitChar n ∈ "0123456789abcdef".toList := by decide

/-- One more digit on the right. -/
theorem hexValue_append_digitChar (d : Text) {n : Nat} (h : n < 16) :
    hexValue (d ++ [Nat.digitChar n]) = 16 * hexValue d + n := by
  have hdigit : ∀ n < 16, (if (Nat.digitChar n).isDigit then (Nat.digitChar n).toNat - 48
      else (Nat.digitChar n).toNat - 87) = n := by decide
  rw [hexValue, List.foldl_append, List.foldl_cons, List.foldl_nil, hdigit n h, ← hexValue]

/-- The `n` digits from place `k` up read back as those places of the word's value. -/
theorem hexValue_hexDigits (v : Word) (n k : Nat) :
    hexValue ((List.range' k n).reverse.map (hexDigit v)) = v.toNat / 16 ^ k % 16 ^ n := by
  induction n generalizing k with
  | zero => simp [hexValue, Nat.mod_one]
  | succ n ih =>
    have hquot : v.toNat / 16 ^ (k + 1) = v.toNat / 16 ^ k / 16 := by rw [Nat.pow_succ, Nat.div_div_eq_div_mul]
    rw [List.range'_succ, List.reverse_cons, List.map_append, List.map_singleton, hexDigit_eq_digitChar,
      hexValue_append_digitChar _ (Nat.mod_lt _ (by decide)), ih, hquot, Nat.pow_succ', Nat.mod_mul, Nat.add_comm]

/-! ### The statements -/

/-- Settles O34: `dec` is the library's spelling, whose digits and value are known; the leading digit by induction on the
quotients. -/
theorem decimalSpelling : Obligations.DecimalSpelling := by
  intro v
  refine ⟨dec_ne_nil v, fun c hc => ?_, fun h => ?_, ?_⟩
  · rw [dec_eq_toDigits] at hc
    exact Nat.isDigit_of_mem_toDigits (by decide) (by decide) hc
  · obtain rfl : v = 0 := eq_zero_of_dec_head? h
    exact ⟨rfl, rfl⟩
  · rw [decimalValue_eq_ofDigitChars, dec_eq_toDigits, Nat.ofDigitChars_ten_toDigits]

/-- Settles O35: the eight digits are those of all eight places, so they read back as the whole value. -/
theorem hexadecimalSpelling : Obligations.HexadecimalSpelling := by
  intro v
  refine ⟨(List.range' 0 8).reverse.map (hexDigit v), rfl, rfl, fun c hc => ?_, ?_⟩
  · obtain ⟨k, -, rfl⟩ := List.mem_map.mp hc
    rw [hexDigit_eq_digitChar]
    exact digitChar_mem_lowercase _ (Nat.mod_lt _ (by decide))
  · have hlt : v.toNat < 16 ^ 8 := v.isLt
    rw [hexValue_hexDigits, Nat.pow_zero, Nat.div_one, Nat.mod_eq_of_lt hlt]

end Sys2Proof.Machine
end

section
/-! One step as the delivery of one result (R32): every meaning prints FMT's line, so presenting a word delivers the result
of its transaction, and a step is such a delivery or the stop at the end of the input. -/

open Sys2Proof Sys2Proof.Machine Sys2Proof.Slice0

namespace Sys2Proof.Machine

/-! ### Transactions -/

/-- Each meaning prints the line FMT builds from the record by shape and mnemonic (R93, R94). -/
theorem exec_eq_format (ins : Instr) (s : State) :
    exec ins s = .next (s.emitLine (format s.cfg s.address ins.form)) := by
  cases ins <;> rfl

/-- A decode error carries the word that was decoded (R260). -/
theorem word_of_decode_err {cfg : Config} {w : Word} {e : DecodeError} (h : decode cfg w = .err e) : e.word = w := by
  rcases decode_cases cfg w with ⟨-, -, hd⟩ | ⟨-, -, -, hd⟩ | ⟨_, -, -, -, hd⟩ | ⟨-, hd⟩ | ⟨-, -, -, hd⟩ | ⟨_, -, -, -, hd⟩ |
    ⟨_, -, -, -, hd⟩ | ⟨-, -, -, hd⟩ <;>
    cases hd.symm.trans h <;> rfl

/-- An error result carries the word of its transaction (R260). -/
theorem word_of_transaction_error {cfg : Config} {a w w' : Word} {k : DecodeErrorKind}
    (h : transaction cfg a w = .error k w') : w' = w := by
  rcases hd : decode cfg w with ins | e
  · rw [transaction_of_ok hd] at h
    cases h
  · rw [transaction_of_err hd] at h
    cases h
    exact word_of_decode_err hd

/-! ### Delivering a result -/

/-- R32: what the environment does with a transaction's result. -/
def State.deliver (r : Result) (s : State) : State :=
  match r with
  | .line l => s.emitLine l
  | .error k w => s.takeError ⟨k, w⟩

section Deliver
variable (r : Result) (s : State)

@[simp] theorem deliver_cfg : (s.deliver r).cfg = s.cfg := by cases r <;> rfl

@[simp] theorem deliver_input : (s.deliver r).input = s.input := by cases r <;> rfl

@[simp] theorem deliver_i : (s.deliver r).i = s.i + 1 := by cases r <;> rfl

@[simp] theorem deliver_out : (s.deliver r).out = s.out ++ linesOf [r] := by
  cases r
  · rfl
  · exact (List.append_nil _).symm

@[simp] theorem deliver_diag : (s.deliver r).diag = s.diag ++ errorsOf [r] := by
  cases r
  · exact (List.append_nil _).symm
  · rfl

/-- Only an error under `abort` stops the run (R270). -/
theorem deliver_status :
    (s.deliver r).status = if s.cfg.onError = .abort ∧ errorsOf [r] ≠ [] then .stopped else s.status := by
  cases r <;> simp [State.deliver]

end Deliver

/-- What is delivered does not depend on the input it was taken from. -/
theorem deliver_with_input (r : Result) (s : State) (ws : List Word) :
    s.deliver r = { ({ s with input := ws } : State).deliver r with input := s.input } := by
  cases r <;> rfl

/-- A result is one line or one error. -/
theorem length_linesOf_add_length_errorsOf (r : Result) : (linesOf [r]).length + (errorsOf [r]).length = 1 := by
  cases r <;> rfl

/-- A result with an error among it is that error, and no line. -/
theorem eq_error_of_errorsOf_ne_nil {r : Result} (h : errorsOf [r] ≠ []) : ∃ k w, r = .error k w := by
  cases r with
  | line l => exact absurd rfl h
  | error k w => exact ⟨k, w, rfl⟩

/-! ### Steps -/

/-- R29: an environment is in one of two conditions. -/
theorem running_or_stopped (s : State) : s.status = .running ∨ s.status = .stopped := by
  cases s.status
  · exact .inl rfl
  · exact .inr rfl

/-- Presenting a word delivers the result of its transaction. -/
theorem present_eq_deliver (w : Word) (s : State) :
    present w s = .next (s.deliver (transaction s.cfg s.address w)) := by
  rcases hd : decode s.cfg w with ins | e
  · rw [present_of_ok hd, transaction_of_ok hd, exec_eq_format]
    rfl
  · rw [present_of_err hd, transaction_of_err hd]
    rfl

/-- A step that presents a word delivers the result of its transaction. -/
theorem step_eq_deliver {s : State} {w : Word} (hwf : s.cfg.wf = true) (hrun : s.status = .running)
    (hw : s.nextWord = some w) : step s = .next (s.deliver (transaction s.cfg s.address w)) := by
  rw [step_of_word hwf hrun hw, present_eq_deliver]

/-- Everything a step can do: if it answers `t`, the configuration is accepted, the environment runs, and `t` is the stopped
state at the end of the input or the state with the result of the next word's transaction delivered. -/
theorem step_next_deliver {s t : State} (h : step s = .next t) :
    s.cfg.wf = true ∧ s.status = .running ∧
    ((s.nextWord = none ∧ t = s.stop) ∨
     ∃ w, s.nextWord = some w ∧ t = s.deliver (transaction s.cfg s.address w)) := by
  obtain ⟨hwf, hrun, hcases⟩ := step_next h
  refine ⟨hwf, hrun, ?_⟩
  rcases hw : s.nextWord with - | w
  · rw [step_of_end hwf hrun hw] at h
    exact .inl ⟨rfl, (Host.Outcome.next.inj h).symm⟩
  · rw [step_eq_deliver hwf hrun hw] at h
    exact .inr ⟨w, rfl, (Host.Outcome.next.inj h).symm⟩

/-! ### The input -/

/-- Words before the first sentinel are presented first (R31). -/
theorem presented_append {before rest : List Word} (h : ∀ w ∈ before, w ≠ sentinel) :
    presented (before ++ rest) = before ++ presented rest :=
  List.takeWhile_append_of_pos fun w hw => bne_iff_ne.mpr (h w hw)

/-- A first word that is no sentinel is presented (R31). -/
theorem presented_cons {w : Word} {ws : List Word} (h : w ≠ sentinel) : presented (w :: ws) = w :: presented ws :=
  List.takeWhile_cons_of_pos (p := fun v => v != sentinel) (bne_iff_ne.mpr h)

/-- No sentinel is presented (R31). -/
theorem ne_sentinel_of_mem_presented {ws : List Word} {w : Word} (h : w ∈ presented ws) : w ≠ sentinel :=
  bne_iff_ne.mp (List.mem_takeWhile_imp (p := fun v => v != sentinel) h)

/-- The words before a sentinel are all that is presented (R31, D18). -/
theorem presented_append_sentinel {before after : List Word} (h : ∀ w ∈ before, w ≠ sentinel) :
    presented (before ++ sentinel :: after) = before := by
  rw [presented_append h, presented, List.takeWhile_cons_of_neg (by simp), List.append_nil]

/-- An input without a sentinel is presented whole (R31). -/
theorem presented_of_no_sentinel {ws : List Word} (h : ∀ w ∈ ws, w ≠ sentinel) : presented ws = ws := by
  simpa [presented] using presented_append (rest := []) h

/-- No more is presented than the input holds. -/
theorem length_presented_le (ws : List Word) : (presented ws).length ≤ ws.length :=
  (List.takeWhile_prefix _).length_le

/-- The end of the input is reached where no presented word remains. -/
theorem nextWord_eq_none_iff {s : State} : s.nextWord = none ↔ (presented s.input).length ≤ s.i :=
  List.getElem?_eq_none_iff

/-- A next word stands before the end of the input. -/
theorem lt_length_of_nextWord {s : State} {w : Word} (h : s.nextWord = some w) : s.i < (presented s.input).length :=
  (List.getElem?_eq_some_iff.mp h).1

/-- Only what an input presents is read: with another input that presents the same words, the step is the same. -/
theorem step_of_presented_eq {s : State} {ws : List Word} (h : presented ws = presented s.input) :
    step s = match step { s with input := ws } with
      | .next t => .next { t with input := s.input }
      | .fault r => .fault r
      | .refused r => .refused r := by
  have hnext : ({ s with input := ws } : State).nextWord = s.nextWord := congrArg (·[s.i]?) h
  cases hwf : s.cfg.wf with
  | false => rw [step_of_illFormed hwf, step_of_illFormed (s := { s with input := ws }) hwf]
  | true =>
    rcases running_or_stopped s with hstatus | hstatus
    · rcases hw : s.nextWord with - | w
      · rw [step_of_end hwf hstatus hw, step_of_end (s := { s with input := ws }) hwf hstatus (hnext.trans hw)]
        rfl
      · rw [step_eq_deliver hwf hstatus hw,
          step_eq_deliver (s := { s with input := ws }) hwf hstatus (hnext.trans hw)]
        exact congrArg Host.Outcome.next (deliver_with_input _ s ws)
    · rw [step_of_stopped hwf hstatus, step_of_stopped (s := { s with input := ws }) hwf hstatus]

/-! ### Placing a word -/

/-- The 32 bits of a word, as a table row, are the word. -/
@[simp] theorem tableWord_toNat (w : Word) : tableWord 32 w.toNat = w := by
  rw [tableWord, Nat.mod_eq_of_lt w.isLt, BitVec.ofNat_toNat, BitVec.setWidth_eq]

/-- The word after as many other words as the position counts is the next one. -/
theorem nextWord_of_input_eq {s : State} {before rest : List Word} {w : Word} (hinput : s.input = before ++ w :: rest)
    (hlength : before.length = s.i) (hbefore : ∀ v ∈ before, v ≠ sentinel) (hw : w ≠ sentinel) : s.nextWord = some w := by
  rw [State.nextWord, hinput, presented_append hbefore, ← hlength, List.getElem?_append_right le_rfl, Nat.sub_self,
    presented_cons hw]
  rfl

/-- The word placed is the word the next step presents (log 3). -/
theorem placeWord_nextWord (s : State) {w : Word} (hw : w ≠ sentinel) : (s.placeWord w).nextWord = some w := by
  have hlength : ((presented s.input).take s.i).length ≤ s.i := List.length_take_le ..
  refine nextWord_of_input_eq rfl ?_ (fun v hv => ?_) hw
  · rw [List.length_append, List.length_replicate, Nat.add_sub_cancel' hlength, placeWord_i]
  · rcases List.mem_append.mp hv with hv | hv
    · exact ne_sentinel_of_mem_presented (List.mem_of_mem_take hv)
    · rw [List.eq_of_mem_replicate hv]
      decide

end Sys2Proof.Machine
end

section
/-! The listing of a run (R48): the invariant at the start, kept by every step, and what it says of a stopped state. -/

open Sys2Proof Sys2Proof.Machine Sys2Proof.Slice0

namespace Sys2Proof.Machine

/-! ### The invariant -/

/-- The start of a run has shown nothing yet, and meets the invariant. -/
theorem startRun_listingInv {cfg : Config} (input : List Word) (hwf : cfg.wf = true) : (startRun cfg input).ListingInv where
  accepted := hwf
  position := Nat.zero_le _
  lines := rfl
  errors := rfl
  running _ _ := rfl
  stopped h := nomatch h

/-- At the end of the input, stopping keeps the invariant. -/
theorem stop_listingInv {s : State} (hinv : s.ListingInv) (hrun : s.status = .running) (hend : s.nextWord = none) :
    s.stop.ListingInv where
  accepted := hinv.accepted
  position := hinv.position
  lines := hinv.lines
  errors := hinv.errors
  running h := nomatch h
  stopped _ := .inl ⟨le_antisymm hinv.position (nextWord_eq_none_iff.mp hend), hinv.running hrun⟩

/-- One more word counted gives its transaction as one more result. -/
theorem results_take_nextWord {s : State} {w : Word} (hw : s.nextWord = some w) :
    results s.cfg ((presented s.input).take (s.i + 1)) =
      results s.cfg ((presented s.input).take s.i) ++ [transaction s.cfg s.address w] :=
  results_take_succ hw

/-- Delivering the result of the next word's transaction keeps the invariant: the channels grow as the results do, and the
run stops exactly when that result is an error under `abort`. -/
theorem deliver_listingInv {s : State} {w : Word} (hinv : s.ListingInv) (hrun : s.status = .running)
    (hw : s.nextWord = some w) : (s.deliver (transaction s.cfg s.address w)).ListingInv where
  accepted := by simpa using hinv.accepted
  position := by simpa using lt_length_of_nextWord hw
  lines := by simp [results_take_nextWord hw, hinv.lines]
  errors := by simp [results_take_nextWord hw, hinv.errors]
  running hstatus habort := by
    rw [deliver_cfg] at habort
    by_cases herr : errorsOf [transaction s.cfg s.address w] = []
    · rw [deliver_diag, herr, hinv.running hrun habort, List.append_nil]
    · rw [deliver_status, if_pos ⟨habort, herr⟩] at hstatus
      cases hstatus
  stopped hstatus := by
    by_cases hcut : s.cfg.onError = .abort ∧ errorsOf [transaction s.cfg s.address w] ≠ []
    · obtain ⟨habort, herr⟩ := hcut
      have hnone : errorsOf (results s.cfg ((presented s.input).take s.i)) = [] := by
        rw [← hinv.errors, hinv.running hrun habort]
      exact .inr ⟨by simpa using habort, by simp, by simp [herr], by simpa using hnone⟩
    · rw [deliver_status, if_neg hcut, hrun] at hstatus
      cases hstatus

/-- Every step keeps the invariant: it stops at the end of the input, or delivers the next word's result. -/
theorem step_listingInv {s t : State} (hinv : s.ListingInv) (h : step s = .next t) : t.ListingInv := by
  obtain ⟨-, hrun, ⟨hend, rfl⟩ | ⟨w, hw, rfl⟩⟩ := step_next_deliver h
  · exact stop_listingInv hinv hrun hend
  · exact deliver_listingInv hinv hrun hw

/-! ### The listing of a stopped state -/

/-- The results of the first words are the first results. -/
theorem results_take_prefix (cfg : Config) (ws : List Word) (n : Nat) : results cfg (ws.take n) <+: results cfg ws := by
  conv_rhs => rw [← List.take_append_drop n ws, results, List.mapIdx_append]
  exact List.prefix_append ..

/-- Where an error ends some first results, the cut leaves those (R270). -/
theorem untilError_of_prefix {rs all : List Result} {r : Result} (hnone : errorsOf rs = []) (herr : errorsOf [r] ≠ [])
    (hprefix : rs ++ [r] <+: all) : untilError all = rs ++ [r] := by
  obtain ⟨k, w, rfl⟩ := eq_error_of_errorsOf_ne_nil herr
  obtain ⟨rest, rfl⟩ := hprefix
  rw [List.append_assoc]
  exact untilError_append_error hnone k w rest

/-- A stopped state that meets the invariant has counted the words whose results the policy delivers (R270). -/
theorem delivered_of_stopped {s : State} (hinv : s.ListingInv) (hstop : s.status = .stopped) :
    delivered s.cfg.onError (results s.cfg (presented s.input)) =
      results s.cfg ((presented s.input).take s.i) := by
  rcases hinv.stopped hstop with ⟨hend, hclean⟩ | ⟨habort, hpos, herr, hnone⟩
  · rw [hend, List.take_length]
    rcases hpolicy : s.cfg.onError with - | -
    · have herrors := hinv.errors
      rw [hclean hpolicy, hend, List.take_length] at herrors
      exact untilError_of_no_error herrors.symm
    · rfl
  · obtain ⟨n, hn⟩ : ∃ n, s.i = n + 1 := ⟨s.i - 1, by omega⟩
    rw [hn, Nat.add_sub_cancel] at hnone
    have hlt : n < (presented s.input).length := by have := hinv.position; omega
    have hsucc := results_take_succ (cfg := s.cfg) (List.getElem?_eq_getElem hlt)
    rw [hinv.errors, hn, hsucc, errorsOf_append, hnone, List.nil_append] at herr
    rw [habort, hn, hsucc]
    exact untilError_of_prefix hnone herr (hsucc ▸ results_take_prefix ..)

/-- A stopped state that meets the invariant shows the listing of its input (R32, R48). -/
theorem observation_of_stopped {s : State} (hinv : s.ListingInv) (hstop : s.status = .stopped) :
    s.observation = listing s.cfg s.input := by
  rw [State.observation, listing, delivered_of_stopped hinv hstop, ← hinv.lines, ← hinv.errors]

/-! ### Runs -/

section
variable {M : Host.Core} {k : Nat} {s t : M.State}

/-- A run of one step more that ends in a next state begins with a step that does. -/
theorem step_of_run_succ (h : M.run (k + 1) s = .next t) : ∃ u, M.step s = .next u ∧ M.run k u = .next t := by
  rw [Host.Core.run] at h
  split at h
  case h_1 u hu => exact ⟨u, hu, h⟩
  all_goals cases h

/-- What every step keeps, every run keeps. -/
theorem run_keeps {P : M.State → Prop} (hstep : ∀ s t, P s → M.step s = .next t → P t) (hs : P s)
    (h : M.run k s = .next t) : P t := by
  induction k generalizing s with
  | zero => exact Host.Outcome.next.inj h ▸ hs
  | succ k ih =>
    obtain ⟨u, hu, hrun⟩ := step_of_run_succ h
    exact ih (hstep s u hs hu) hrun

end

/-- From a running state with at most `n` words left, a run stops within `n + 1` steps: the position moves on with every
word, and the end takes a step of its own (log 4). -/
theorem run_stops {n : Nat} {s : State} (hwf : s.cfg.wf = true) (hrun : s.status = .running)
    (hn : (presented s.input).length ≤ s.i + n) :
    ∃ k t, k ≤ n + 1 ∧ Host.Core.run Sys2Proof.core k s = .next t ∧ t.status = .stopped := by
  induction n generalizing s with
  | zero => exact ⟨1, s.stop, le_rfl, run_of_next (step_of_end hwf hrun (nextWord_eq_none_iff.mpr hn)), rfl⟩
  | succ n ih =>
    rcases hw : s.nextWord with - | w
    · exact ⟨1, s.stop, by omega, run_of_next (step_of_end hwf hrun hw), rfl⟩
    · have hstep := step_eq_deliver hwf hrun hw
      rcases running_or_stopped (s.deliver (transaction s.cfg s.address w)) with hstatus | hstatus
      · obtain ⟨k, t, hk, ht, hstop⟩ := ih (by rwa [deliver_cfg]) hstatus (by rw [deliver_input, deliver_i]; omega)
        exact ⟨k + 1, t, by omega, (run_of_next hstep).trans ht, hstop⟩
      · exact ⟨1, _, by omega, run_of_next hstep, hstatus⟩

end Sys2Proof.Machine
end

section
/-! The statements about the state and the environment's step (10_state.md). -/

open Sys2Proof Sys2Proof.Machine Sys2Proof.Slice0

namespace Sys2Proof.Machine

/-! ### The listing -/

/-- Settles O48: a step stops at the end of the input or delivers the next word's result, and both keep the invariant. -/
theorem stepKeepsListing : Obligations.StepKeepsListing :=
  fun _ _ hinv h => step_listingInv hinv h

/-- Settles O47: nothing has been presented, and nothing is shown. -/
theorem startOfRunHasListing : Obligations.StartOfRunHasListing :=
  ⟨fun _ input hwf => startRun_listingInv input hwf, reset_eq_startRun ▸ startRun_listingInv [] (by decide)⟩

/-- Configuration and input are constant for a run (R26, R51). -/
theorem step_cfg_input {s t : State} (h : step s = .next t) : t.cfg = s.cfg ∧ t.input = s.input := by
  obtain ⟨-, -, ⟨-, rfl⟩ | ⟨w, -, rfl⟩⟩ := step_next_deliver h
  · exact ⟨rfl, rfl⟩
  · exact ⟨deliver_cfg .., deliver_input ..⟩

/-- Settles O49: the words left bound the steps to the stop; the invariant, kept by the run, says what the stopped state
shows. -/
theorem everyRunEndsInItsListing : Obligations.EveryRunEndsInItsListing := by
  intro cfg input hwf
  have hlength : (presented input).length ≤ 0 + input.length := by simpa using length_presented_le input
  obtain ⟨k, t, hk, hrun, hstop⟩ := run_stops (s := startRun cfg input) hwf rfl hlength
  have hinv : t.ListingInv := run_keeps (fun _ _ => step_listingInv) (startRun_listingInv input hwf) hrun
  obtain ⟨hcfg, hinput⟩ : t.cfg = cfg ∧ t.input = input :=
    run_keeps (M := Sys2Proof.core) (P := fun s : State => s.cfg = cfg ∧ s.input = input)
      (fun s u hs hu => (step_cfg_input hu).imp hs.1.subst hs.2.subst) ⟨rfl, rfl⟩ hrun
  refine ⟨k, t, hk, hrun, hstop, ?_, step_of_stopped hinv.accepted hstop⟩
  rw [observation_of_stopped hinv hstop, hcfg, hinput]

/-! ### What an instruction and a step leave unchanged -/

/-- Settles O32: an instruction emits one line and does nothing else. -/
theorem instructionFrame : Obligations.InstructionFrame := by
  intro ins s t h
  obtain ⟨l, rfl⟩ := exec_next h
  exact ⟨rfl, rfl, rfl, rfl, rfl, List.length_append, List.prefix_append .., rfl⟩

/-- The address stands in brackets before a text that does not depend on it (R90, R24). -/
theorem format_eq_address_append (cfg : Config) (ins : Instruction) :
    ∃ rest, ∀ a, format cfg a ins = "[".toList ++ hex8 a ++ "] ".toList ++ rest :=
  ⟨hex8 ins.raw ++ " ".toList ++ spell ins.mnem ++ operandsText (operandsOf ins) ++ cfg.eol, fun a => by
    simp only [format, lineText, List.append_assoc]⟩

/-- Settles O33: the line printed is the formatter's, and the text after its address is fixed by the record and the
configuration. -/
theorem addressReachesOnlyItsField : Obligations.AddressReachesOnlyItsField := by
  intro ins cfg
  obtain ⟨rest, hrest⟩ := format_eq_address_append cfg ins.form
  refine ⟨rest, fun s hcfg => ⟨_, exec_eq_format ins s, ?_⟩⟩
  subst hcfg
  rw [emitLine_out, hrest]
  rfl

/-- Settles O45: stopping moves nothing, and delivering appends. -/
theorem stepOnlyAppends : Obligations.StepOnlyAppends := by
  intro s t h
  obtain ⟨hcfg, hinput⟩ := step_cfg_input h
  refine ⟨hcfg, hinput, ?_⟩
  obtain ⟨-, -, ⟨-, rfl⟩ | ⟨w, -, rfl⟩⟩ := step_next_deliver h
  · exact ⟨List.prefix_rfl, List.prefix_rfl, le_rfl⟩
  · rw [deliver_out, deliver_diag, deliver_i]
    exact ⟨List.prefix_append .., List.prefix_append .., Nat.le_succ _⟩

/-! ### What a step does -/

/-- Settles O40: the word presented is decoded, and its meaning is run. -/
theorem stepRunsDecodedInstruction : Obligations.StepRunsDecodedInstruction :=
  fun _ _ _ hwf hrun hw hd => (step_of_word hwf hrun hw).trans (present_of_ok hd)

/-- Settles O41: a step is the delivery of the transaction's result, which an error's word identifies. -/
theorem environmentStepDeliversTransaction : Obligations.EnvironmentStepDeliversTransaction := by
  refine ⟨rfl, fun s hwf => ⟨fun hrun w hw => ?_, step_of_end hwf, fun hstop ⟨t, ht⟩ => ?_⟩⟩
  · refine ⟨_, step_eq_deliver hwf hrun hw, deliver_cfg .., deliver_input .., deliver_i .., ?_⟩
    rw [← addressAt, ← State.address]
    rcases hr : transaction s.cfg s.address w with l | ⟨k, w'⟩
    · exact ⟨rfl, rfl, hrun⟩
    · obtain rfl := word_of_transaction_error hr
      exact ⟨rfl, rfl, rfl, by rw [← hrun]; rfl⟩
  · rw [step_of_stopped hwf hstop] at ht
    cases ht

/-- Settles O43: both inputs present the words before the sentinel, and a step reads nothing else of its input. -/
theorem nothingAfterSentinelIsRead : Obligations.NothingAfterSentinelIsRead := by
  intro s before after hbefore hinput
  have hpresented : presented s.input = before := by rw [hinput]; exact presented_append_sentinel hbefore
  have hsame : presented before = presented s.input := by rw [hpresented, presented_of_no_sentinel hbefore]
  exact ⟨step_of_presented_eq hsame, fun hwf hrun hend =>
    step_of_end hwf hrun (nextWord_eq_none_iff.mpr (hpresented.symm ▸ hend))⟩

/-- Settles O44: what both states append is the one result of the transaction, a function of configuration, address and
word. -/
theorem transactionIndependentOfHistory : Obligations.TransactionIndependentOfHistory := by
  intro s s' t t' w hcfg haddress hrun hrun' hw hw' hstep hstep'
  obtain ⟨hwf, -⟩ := step_next_deliver hstep
  obtain ⟨hwf', -⟩ := step_next_deliver hstep'
  rw [step_eq_deliver hwf hrun hw] at hstep
  rw [step_eq_deliver hwf' hrun' hw', ← hcfg, ← haddress] at hstep'
  obtain rfl := Host.Outcome.next.inj hstep
  obtain rfl := Host.Outcome.next.inj hstep'
  exact ⟨_, _, deliver_out .., deliver_out .., deliver_diag .., deliver_diag ..,
    by rw [deliver_status, deliver_status, hcfg, hrun, hrun'], length_linesOf_add_length_errorsOf _⟩

/-- Settles O50: the word's 32 bits are the word, and it stands at the position. -/
theorem placedWordIsPresentedNext : Obligations.PlacedWordIsPresentedNext := by
  intro s w hwf hw
  rw [State.withFetchWord, tableWord_toNat]
  exact ⟨step_of_word hwf (placeWord_status ..) (placeWord_nextWord s hw), rfl, rfl⟩

/-! ### Addresses and the start of a run -/

/-- The first word gets BASE (R30). -/
theorem addressAt_zero (base : Word) : addressAt base 0 = base := by
  rw [addressAt, Nat.mul_zero, Nat.add_zero, BitVec.ofNat_toNat, BitVec.setWidth_eq]

/-- The address as a number: reduced mod 2^32 (R30, D14). -/
theorem addressAt_toNat (base : Word) (i : Nat) : (addressAt base i).toNat = (base.toNat + 4 * i) % 2 ^ 32 :=
  BitVec.toNat_ofNat ..

/-- The next word's address is 4 more (R30). -/
theorem addressAt_succ (base : Word) (i : Nat) : addressAt base (i + 1) = addressAt base i + 4 := by
  rw [addressAt, addressAt, Nat.mul_succ, ← Nat.add_assoc, BitVec.ofNat_add]
  rfl

/-- Settles O38: 4 divides the modulus of the wrap, so it keeps the alignment; the wrap of the default BASE by evaluation. -/
theorem addressFollowsPosition : Obligations.AddressFollowsPosition := by
  refine ⟨addressAt_zero, addressAt_succ, fun base i => ?_, fun base i h => ?_, by decide, by decide⟩
  · rw [addressAt_toNat, Nat.mod_mod_of_dvd _ (by decide), Nat.add_mul_mod_self_left]
  · rw [addressAt_toNat, Nat.mod_eq_of_lt h]

/-- Settles O39: the fields of the start of a run are R33's, and position 0 gets BASE. -/
theorem startOfRunValues : Obligations.StartOfRunValues :=
  ⟨fun cfg _ => ⟨rfl, addressAt_zero cfg.base, rfl, rfl, rfl, rfl, rfl⟩, reset_eq_startRun, addressAt_zero _⟩

end Sys2Proof.Machine
end

section
/-! The byte-image wrapper (20_memory.md R41): one rule for each of its two outcomes, on the bytes of words and on a length. -/

open Sys2Proof.Slice0

namespace Sys2Proof

/-! ### Reading the words of an image -/

/-- A word is its four bytes, the highest first. -/
theorem bytes_append_eq (w : Word) :
    w.extractLsb' 24 8 ++ w.extractLsb' 16 8 ++ w.extractLsb' 8 8 ++ w.extractLsb' 0 8 = w := by
  iterate 3 rw [BitVec.extractLsb'_append_extractLsb'_eq_extractLsb' (by omega)]
  exact BitVec.extractLsb'_eq_self

/-- The bytes of a word at the head of an image read as that word, in either order. -/
theorem wordsOfImage_bytesOf_append (order : ByteOrder) (w : Word) (rest : List Byte) :
    wordsOfImage order (bytesOf order w ++ rest) = (wordsOfImage order rest).cons w := by
  cases order with
  | big | little => exact congrArg (ImageResult.cons · _) (bytes_append_eq w)

/-- Words laid out as bytes read back, by induction on the words. -/
theorem wordsOfImage_flatMap_bytesOf (order : ByteOrder) (ws : List Word) :
    wordsOfImage order (ws.flatMap (bytesOf order)) = .words ws := by
  induction ws with
  | nil => rfl
  | cons w ws ih => rw [List.flatMap_cons, wordsOfImage_bytesOf_append, ih, ImageResult.cons]

/-! ### Rejecting an image -/

/-- A word in front neither causes nor cures a rejection. -/
@[simp] theorem ImageResult.cons_eq_leftover_iff {w : Word} {r : ImageResult} {n : Nat} :
    r.cons w = .leftover n ↔ r = .leftover n := by
  cases r <;> simp [ImageResult.cons]

/-- The bytes left over are the remainder of the length by 4, and an image is rejected when there are some: by recursion
on the image, four bytes at a time. -/
theorem wordsOfImage_eq_leftover_iff {order : ByteOrder} {image : List Byte} {n : Nat} :
    wordsOfImage order image = .leftover n ↔ image.length % 4 = n ∧ n ≠ 0 := by
  induction image using wordsOfImage.induct with
  | case1 =>
    simp only [wordsOfImage, reduceCtorEq, List.length_nil, Nat.zero_mod, false_iff]
    omega
  | case2 b0 b1 b2 b3 rest ih =>
    have hlength : (b0 :: b1 :: b2 :: b3 :: rest).length % 4 = rest.length % 4 := Nat.add_mod_right rest.length 4
    rw [wordsOfImage, ImageResult.cons_eq_leftover_iff, ih, hlength]
  | case3 | case4 | case5 =>
    simp only [wordsOfImage, ImageResult.leftover.injEq, List.length_cons, List.length_nil]
    omega

/-! ### The statement -/

/-- Settles O51: each word's four bytes read as that word, and the bytes left over are the remainder of the length by 4. -/
theorem byteImageReadsBack : Obligations.ByteImageReadsBack := by
  refine ⟨wordsOfImage_flatMap_bytesOf, fun order image => ⟨fun ⟨n, h⟩ => ?_, fun h => ?_⟩⟩
  · obtain ⟨rfl, hne⟩ := wordsOfImage_eq_leftover_iff.mp h
    exact hne
  · exact ⟨_, wordsOfImage_eq_leftover_iff.mpr ⟨rfl, h⟩⟩

end Sys2Proof
end

section
/-! The decoder read backwards (30_encoding.md R64, R70): the record DEC builds is fixed by the mnemonic and the word, and
the mnemonic by the bits dispatch reads. -/

open Sys2Proof.Slice0

namespace Sys2Proof

/-! ### The instruction of a mnemonic and a word -/

/-- The instruction with a given mnemonic whose record DEC fills from `w` (R64). -/
def Mnem.instr (w : Word) : Mnem → Instr
  | .r m => .ofRegister m (registerFields w)
  | .i m => .ofImmediate m (immediateFields w)
  | .j m => .ofJump m (jumpFields w)

/-- An instruction built with a mnemonic has it. -/
@[simp] theorem ofRegister_mnem (m : RMnem) (f : RegisterFields) : (Instr.ofRegister m f).mnem = .r m := by
  rw [Instr.mnem, ofRegister_form, Instruction.mnem]

@[simp] theorem ofImmediate_mnem (m : IMnem) (f : ImmediateFields) : (Instr.ofImmediate m f).mnem = .i m := by
  rw [Instr.mnem, ofImmediate_form, Instruction.mnem]

@[simp] theorem ofJump_mnem (m : JMnem) (f : JumpFields) : (Instr.ofJump m f).mnem = .j m := by
  rw [Instr.mnem, ofJump_form, Instruction.mnem]

@[simp] theorem Mnem.instr_mnem (m : Mnem) (w : Word) : (m.instr w).mnem = m := by
  cases m <;> simp [Mnem.instr]

@[simp] theorem Mnem.instr_raw (m : Mnem) (w : Word) : (m.instr w).raw = w := by
  cases m <;> simp [Mnem.instr, Instr.raw, Instruction.raw, registerFields, immediateFields, jumpFields]

/-- The mnemonic an entry of `OpcodeMap` selects (R72). -/
def OpcodeMnem.mnem : OpcodeMnem → Mnem
  | .imm m => .i m
  | .jump m => .j m
  | .mul => .r .mul

/-! ### What an instruction or an error says of its word -/

section
variable {cfg : Config} {w : Word}

/-- Where an instruction comes from: `FunctMap`, the opcode-1 pair, or `OpcodeMap`. -/
theorem decode_ok_cases {ins : Instr} (h : decode cfg w = .ok ins) :
    (∃ m, w.extractLsb' 26 6 = 0 ∧ w.extractLsb' 0 6 ≠ cfg.functMul ∧ cfg.functEntry (w.extractLsb' 0 6) = some m ∧
      ins = (Mnem.r (if m = .sll ∧ w = 0 then .nop else m)).instr w) ∨
    (w.extractLsb' 26 6 = 1 ∧ ins = (Mnem.i (if w.extractLsb' 16 5 ≠ 0 then .bgez else .bltz)).instr w) ∨
    (∃ m, w.extractLsb' 26 6 ≠ 0 ∧ w.extractLsb' 26 6 ≠ 1 ∧ cfg.opcodeEntry (w.extractLsb' 26 6) = some m ∧
      ins = m.mnem.instr w) := by
  rcases decode_cases cfg w with ⟨-, -, hd⟩ | ⟨-, -, -, hd⟩ | ⟨m, h0, hm, he, hd⟩ | ⟨h1, hd⟩ | ⟨-, -, -, hd⟩ |
    ⟨m, h0, h1, he, hd⟩ | ⟨m, h0, h1, he, hd⟩ | ⟨h0, h1, he, hd⟩ <;> cases hd.symm.trans h
  · exact .inl ⟨m, h0, hm, he, rfl⟩
  · exact .inr (.inl ⟨h1, rfl⟩)
  · exact .inr (.inr ⟨.imm m, h0, h1, he, rfl⟩)
  · exact .inr (.inr ⟨.jump m, h0, h1, he, rfl⟩)
  · exact .inr (.inr ⟨.mul, h0, h1, he, rfl⟩)

/-- Where an error comes from (R76, R81, R82). -/
theorem decode_err_cases {e : DecodeError} (h : decode cfg w = .err e) :
    (e = ⟨.invalidMultiplyEncoding, w⟩ ∧ w.extractLsb' 26 6 = 0 ∧ w.extractLsb' 0 6 = cfg.functMul) ∨
    (e = ⟨.unrecognizedFunctionCode, w⟩ ∧ w.extractLsb' 26 6 = 0 ∧ w.extractLsb' 0 6 ≠ cfg.functMul ∧
      cfg.functEntry (w.extractLsb' 0 6) = none) ∨
    (e = ⟨.unrecognizedOpcode, w⟩ ∧ w.extractLsb' 26 6 ≠ 0 ∧ w.extractLsb' 26 6 ≠ 1 ∧
      cfg.opcodeEntry (w.extractLsb' 26 6) = none) := by
  rcases decode_cases cfg w with ⟨h0, hm, hd⟩ | ⟨h0, hm, he, hd⟩ | ⟨_, -, -, -, hd⟩ | ⟨-, hd⟩ | ⟨h0, h1, he, hd⟩ |
    ⟨_, -, -, -, hd⟩ | ⟨_, -, -, -, hd⟩ | ⟨-, -, -, hd⟩ <;> cases hd.symm.trans h
  · exact .inl ⟨rfl, h0, hm⟩
  · exact .inr (.inl ⟨rfl, h0, hm, he⟩)
  · exact .inr (.inr ⟨rfl, h0, h1, he⟩)

/-- What a word decodes to is fixed by its mnemonic (R64). -/
theorem eq_instr_of_decode {ins : Instr} (h : decode cfg w = .ok ins) : ins = ins.mnem.instr w := by
  obtain ⟨m, -, -, -, rfl⟩ | ⟨-, rfl⟩ | ⟨m, -, -, -, rfl⟩ := decode_ok_cases h <;> rw [Mnem.instr_mnem]

/-- The record keeps the word (R64). -/
theorem raw_of_decode {ins : Instr} (h : decode cfg w = .ok ins) : ins.raw = w := by
  rw [eq_instr_of_decode h, Mnem.instr_raw]

/-! ### What a word decodes to -/

/-- FUNCT_MUL is tested first (R76). -/
theorem decode_of_functMul (h0 : w.extractLsb' 26 6 = 0) (hm : w.extractLsb' 0 6 = cfg.functMul) :
    decode cfg w = .err ⟨.invalidMultiplyEncoding, w⟩ := by
  rw [decode_of_opcode_zero h0, decodeByFunct, functOf_eq, if_pos hm]

/-- A function code in `FunctMap` (R73, R74). -/
theorem decode_of_functEntry {m : RMnem} (h0 : w.extractLsb' 26 6 = 0) (hm : w.extractLsb' 0 6 ≠ cfg.functMul)
    (he : cfg.functEntry (w.extractLsb' 0 6) = some m) :
    decode cfg w = .ok (.ofRegister (if m = .sll ∧ w = 0 then .nop else m) (registerFields w)) := by
  rw [decode_of_opcode_zero h0, decodeByFunct, functOf_eq, if_neg hm, he]

/-- A function code in neither (R82). -/
theorem decode_of_functEntry_none (h0 : w.extractLsb' 26 6 = 0) (hm : w.extractLsb' 0 6 ≠ cfg.functMul)
    (he : cfg.functEntry (w.extractLsb' 0 6) = none) : decode cfg w = .err ⟨.unrecognizedFunctionCode, w⟩ := by
  rw [decode_of_opcode_zero h0, decodeByFunct, functOf_eq, if_neg hm, he]

/-- The opcode-1 pair (R71). -/
theorem decode_of_branchPair (h1 : w.extractLsb' 26 6 = 1) :
    decode cfg w = .ok (.ofImmediate (if w.extractLsb' 16 5 ≠ 0 then .bgez else .bltz) (immediateFields w)) := by
  rw [decode_of_opcode_one h1, decodeBranchPair, targetRegOf_eq]

/-- An opcode in `OpcodeMap` (R72, R75). -/
theorem decode_of_opcodeEntry {m : OpcodeMnem} (h0 : w.extractLsb' 26 6 ≠ 0) (h1 : w.extractLsb' 26 6 ≠ 1)
    (he : cfg.opcodeEntry (w.extractLsb' 26 6) = some m) : decode cfg w = .ok (m.mnem.instr w) := by
  rw [decode_of_opcode_other h0 h1, decodeByOpcode, opcodeOf_eq, he]
  cases m <;> rfl

/-- An opcode in neither place (R81). -/
theorem decode_of_opcodeEntry_none (h0 : w.extractLsb' 26 6 ≠ 0) (h1 : w.extractLsb' 26 6 ≠ 1)
    (he : cfg.opcodeEntry (w.extractLsb' 26 6) = none) : decode cfg w = .err ⟨.unrecognizedOpcode, w⟩ := by
  rw [decode_of_opcode_other h0 h1, decodeByOpcode, opcodeOf_eq, he]

end

/-! ### Well-formed instructions -/

/-- The test R70 makes of a function-dispatched word. -/
theorem byFunct_iff {cfg : Config} {m : RMnem} {f : RegisterFields} :
    f.byFunct cfg m = true ↔ f.consistent = true ∧ f.raw.extractLsb' 26 6 = 0 ∧ f.raw.extractLsb' 0 6 ≠ cfg.functMul ∧
      cfg.functEntry (f.raw.extractLsb' 0 6) = some m := by
  simp [RegisterFields.byFunct, and_assoc]

/-- The test R70 makes of an opcode-dispatched word. -/
theorem byOpcode_iff {cfg : Config} {m : OpcodeMnem} {w : Word} :
    byOpcode cfg m w = true ↔ w.extractLsb' 26 6 ≠ 0 ∧ w.extractLsb' 26 6 ≠ 1 ∧
      cfg.opcodeEntry (w.extractLsb' 26 6) = some m := by
  simp [byOpcode, and_assoc]

/-- Well-formedness of a mnemonic that a function code selects: `sll` is not the zero word (R74). -/
theorem wf_instr_of_mem_functRange (cfg : Config) (w : Word) {m : RMnem} (hm : m ∈ functRange) :
    ((Mnem.r m).instr w).wf cfg = ((registerFields w).byFunct cfg m && (m != .sll || w != 0)) := by
  cases m with
  | mul | nop => exact absurd hm (by decide)
  | sll => rfl
  | add | addu | and | slt | sub | sra | jr | jalr | syscall => exact (Bool.and_true _).symm

/-- Well-formedness of a mnemonic that an opcode selects. -/
theorem wf_instr_of_mem_opcodeRange (cfg : Config) (w : Word) {m : OpcodeMnem} (hm : m ∈ opcodeRange) :
    (m.mnem.instr w).wf cfg = byOpcode cfg m w := by
  match m with
  | .mul =>
    change ((registerFields w).consistent && byOpcode cfg .mul w) = _
    rw [registerFields_consistent, Bool.true_and]
  | .jump .j | .jump .jal =>
    change ((jumpFields w).consistent && byOpcode cfg (.jump _) w) = _
    rw [jumpFields_consistent, Bool.true_and]
  | .imm m =>
    cases m with
    | bltz | bgez => exact absurd hm (by decide)
    | addi | addiu | andi | ori | lui | lb | lw | sb | sw | beq | bne | blez | bgtz =>
      change ((immediateFields w).consistent && byOpcode cfg (.imm _) w) = _
      rw [immediateFields_consistent, Bool.true_and]

/-- Well-formedness of `nop`: the zero word (R74). -/
theorem wf_instr_nop_iff {cfg : Config} {w : Word} :
    ((Mnem.r .nop).instr w).wf cfg = true ↔ (registerFields w).byFunct cfg .sll = true ∧ w = 0 := by
  change ((registerFields w).byFunct cfg .sll && w == 0) = true ↔ _
  rw [Bool.and_eq_true, beq_iff_eq]

/-- Well-formedness of the opcode-1 pair: rt decides (R71). -/
theorem wf_instr_bltz_iff {cfg : Config} {w : Word} :
    ((Mnem.i .bltz).instr w).wf cfg = true ↔ w.extractLsb' 26 6 = 1 ∧ w.extractLsb' 16 5 = 0 := by
  change ((immediateFields w).consistent && w.extractLsb' 26 6 == 1 && targetRegOf w == 0) = true ↔ _
  simp [immediateFields_consistent]

theorem wf_instr_bgez_iff {cfg : Config} {w : Word} :
    ((Mnem.i .bgez).instr w).wf cfg = true ↔ w.extractLsb' 26 6 = 1 ∧ w.extractLsb' 16 5 ≠ 0 := by
  change ((immediateFields w).consistent && w.extractLsb' 26 6 == 1 && targetRegOf w != 0) = true ↔ _
  simp [immediateFields_consistent]

/-- DEC builds well-formed instructions only. -/
theorem wf_of_decode {cfg : Config} {w : Word} {ins : Instr} (hc : cfg.wf = true) (h : decode cfg w = .ok ins) :
    ins.wf cfg = true := by
  obtain ⟨m, h0, hm, he, rfl⟩ | ⟨h1, rfl⟩ | ⟨m, h0, h1, he, rfl⟩ := decode_ok_cases h
  · have hf : (registerFields w).byFunct cfg m = true := byFunct_iff.mpr ⟨registerFields_consistent w, h0, hm, he⟩
    by_cases hz : m = .sll ∧ w = 0
    · obtain ⟨rfl, rfl⟩ := hz
      exact wf_instr_nop_iff.mpr ⟨hf, rfl⟩
    · rw [if_neg hz, wf_instr_of_mem_functRange cfg w (functEntry_mem hc he), hf]
      simpa [imp_iff_not_or] using hz
  · by_cases ht : w.extractLsb' 16 5 = 0
    · rw [if_neg (not_not.mpr ht)]
      exact wf_instr_bltz_iff.mpr ⟨h1, ht⟩
    · rw [if_pos ht]
      exact wf_instr_bgez_iff.mpr ⟨h1, ht⟩
  · rw [wf_instr_of_mem_opcodeRange cfg w (opcodeEntry_mem hc he)]
    exact byOpcode_iff.mpr ⟨h0, h1, he⟩

/-! ### The raw word of a well-formed instruction

One lemma for each way a mnemonic is selected (R70): by function code, as one of the opcode-1 pair, by opcode. -/

section
variable {cfg : Config}

theorem decode_raw_of_byFunct {m : RMnem} {f : RegisterFields} (h : f.byFunct cfg m = true) :
    decode cfg f.raw = .ok (.ofRegister (if m = .sll ∧ f.raw = 0 then .nop else m) f) := by
  obtain ⟨hs, h0, hm, he⟩ := byFunct_iff.mp h
  rw [decode_of_functEntry h0 hm he, ← RegisterFields.eq_of_consistent hs]

theorem decode_raw_of_branchPair {f : ImmediateFields} (hs : f.consistent = true) (h1 : f.raw.extractLsb' 26 6 = 1) :
    decode cfg f.raw = .ok (.ofImmediate (if f.targetReg ≠ 0 then .bgez else .bltz) f) := by
  have ht : f.targetReg = f.raw.extractLsb' 16 5 := by
    conv_lhs => rw [ImmediateFields.eq_of_consistent hs]
    exact targetRegOf_eq f.raw
  rw [decode_of_branchPair h1, ← ImmediateFields.eq_of_consistent hs, ht]

theorem decode_of_byOpcode {m : OpcodeMnem} {w : Word} (h : byOpcode cfg m w = true) :
    decode cfg w = .ok (m.mnem.instr w) := by
  obtain ⟨h0, h1, he⟩ := byOpcode_iff.mp h
  exact decode_of_opcodeEntry h0 h1 he

theorem decode_raw_of_immediate {m : IMnem} {f : ImmediateFields}
    (h : (f.consistent && byOpcode cfg (.imm m) f.raw) = true) : decode cfg f.raw = .ok (.ofImmediate m f) := by
  obtain ⟨hs, hm⟩ := Bool.and_eq_true_iff.mp h
  rw [decode_of_byOpcode hm, OpcodeMnem.mnem, Mnem.instr, ← ImmediateFields.eq_of_consistent hs]

theorem decode_raw_of_jump {m : JMnem} {f : JumpFields} (h : (f.consistent && byOpcode cfg (.jump m) f.raw) = true) :
    decode cfg f.raw = .ok (.ofJump m f) := by
  obtain ⟨hs, hm⟩ := Bool.and_eq_true_iff.mp h
  rw [decode_of_byOpcode hm, OpcodeMnem.mnem, Mnem.instr, ← JumpFields.eq_of_consistent hs]

theorem decode_raw_of_mul {f : RegisterFields} (h : (f.consistent && byOpcode cfg .mul f.raw) = true) :
    decode cfg f.raw = .ok (.mul f) := by
  obtain ⟨hs, hm⟩ := Bool.and_eq_true_iff.mp h
  rw [decode_of_byOpcode hm, OpcodeMnem.mnem, Mnem.instr, ← RegisterFields.eq_of_consistent hs, Instr.ofRegister]

end

/-- The raw word of a well-formed instruction decodes to it. -/
theorem decode_raw_of_wf {cfg : Config} {ins : Instr} (h : ins.wf cfg = true) : decode cfg ins.raw = .ok ins := by
  cases ins with
  | add f | addu f | and f | slt f | sub f | sra f | jr f | jalr f | syscall f => exact decode_raw_of_byFunct h
  | sll f =>
    obtain ⟨hf, hz⟩ := Bool.and_eq_true_iff.mp h
    exact (decode_raw_of_byFunct hf).trans (by rw [if_neg fun hn => bne_iff_ne.mp hz hn.2]; rfl)
  | nop f =>
    obtain ⟨hf, hz⟩ := Bool.and_eq_true_iff.mp h
    exact (decode_raw_of_byFunct hf).trans (by rw [if_pos ⟨rfl, beq_iff_eq.mp hz⟩]; rfl)
  | mul f => exact decode_raw_of_mul h
  | addi f | addiu f | andi f | ori f | lui f | lb f | lw f | sb f | sw f | beq f | bne f | blez f | bgtz f =>
    exact decode_raw_of_immediate h
  | bltz f =>
    obtain ⟨hs, ht⟩ := Bool.and_eq_true_iff.mp h
    obtain ⟨hs, h1⟩ := Bool.and_eq_true_iff.mp hs
    exact (decode_raw_of_branchPair hs (beq_iff_eq.mp h1)).trans
      (by rw [if_neg (not_not.mpr (beq_iff_eq.mp ht))]; rfl)
  | bgez f =>
    obtain ⟨hs, ht⟩ := Bool.and_eq_true_iff.mp h
    obtain ⟨hs, h1⟩ := Bool.and_eq_true_iff.mp hs
    exact (decode_raw_of_branchPair hs (beq_iff_eq.mp h1)).trans (by rw [if_pos (bne_iff_ne.mp ht)]; rfl)
  | j f | jal f => exact decode_raw_of_jump h

/-- The word of a well-formed instruction, built from R63's tables, is its raw word. -/
theorem encode_of_wf {cfg : Config} {ins : Instr} (hc : cfg.wf = true) (h : ins.wf cfg = true) :
    encode cfg ins = some ins.raw := by
  cases ins with
  | add f | addu f | and f | slt f | sub f | sra f | jr f | jalr f | syscall f => exact Laws.EncodesRaw.byFunct hc h
  | sll f => exact Laws.EncodesRaw.sll f cfg hc h
  | nop f => exact Laws.EncodesRaw.nop f cfg hc h
  | mul f => exact Laws.EncodesRaw.mul f cfg hc h
  | addi f | addiu f | andi f | ori f | lui f | lb f | lw f | sb f | sw f | beq f | bne f | blez f | bgtz f =>
    exact Laws.EncodesRaw.byOpcode hc h
  | bltz f => exact Laws.EncodesRaw.bltz f cfg hc h
  | bgez f => exact Laws.EncodesRaw.bgez f cfg hc h
  | j f | jal f => exact Laws.EncodesRaw.jumpByOpcode hc h

/-! ### Decode and encode agree -/

/-- Settles O15: the word a well-formed instruction encodes to is its raw word, which decodes to it. -/
theorem encodeThenDecode : Obligations.EncodeThenDecode :=
  fun _ ins hc h => ⟨ins.raw, encode_of_wf hc h, decode_raw_of_wf h⟩

/-- Settles O16: what DEC builds is well formed, so it encodes to its raw word, the word decoded. -/
theorem decodeThenEncode : Obligations.DecodeThenEncode := by
  intro cfg w ins hc h
  have hwf := wf_of_decode hc h
  exact ⟨hwf, raw_of_decode h ▸ encode_of_wf hc hwf⟩

end Sys2Proof
end

section
/-! The decoder's rules as statements over words (30_encoding.md R60, R64, R70 to R84): slices read by division, the dispatch
algorithm, which words raise which error, and the special words. -/

open Sys2Proof.Slice0

namespace Sys2Proof

/-! ### Slices as numbers -/

/-- A slice is a quotient's remainder (R11). -/
theorem slice_toNat (w : Word) (lo width : Nat) : (w.extractLsb' lo width).toNat = w.toNat / 2 ^ lo % 2 ^ width := by
  rw [BitVec.extractLsb'_toNat, Nat.shiftRight_eq_div_pow]

/-- The opcode is the quotient by 2^26: nothing stands above it (R63). -/
theorem opcode_toNat (w : Word) : (w.extractLsb' 26 6).toNat = w.toNat / 2 ^ 26 := by
  rw [slice_toNat, Nat.mod_eq_of_lt (by omega)]

/-- A slice from bit 0 is a remainder. -/
theorem low_slice_toNat (w : Word) (width : Nat) : (w.extractLsb' 0 width).toNat = w.toNat % 2 ^ width := by
  rw [slice_toNat, Nat.pow_zero, Nat.div_one]

/-- The opcode as a code, from the number. -/
theorem ofNat_opcode (w : Word) : BitVec.ofNat 6 (w.toNat / 2 ^ 26) = w.extractLsb' 26 6 := by
  rw [← opcode_toNat, BitVec.ofNat_toNat, BitVec.setWidth_eq]

/-- The function code as a code, from the number. -/
theorem ofNat_funct (w : Word) : BitVec.ofNat 6 (w.toNat % 2 ^ 6) = w.extractLsb' 0 6 := by
  rw [← low_slice_toNat, BitVec.ofNat_toNat, BitVec.setWidth_eq]

/-- The tests of R70, on numbers. -/
theorem opcode_eq_zero_iff {w : Word} : w.toNat / 2 ^ 26 = 0 ↔ w.extractLsb' 26 6 = 0 := by
  rw [← opcode_toNat]
  exact BitVec.toNat_inj (y := 0)

theorem opcode_eq_one_iff {w : Word} : w.toNat / 2 ^ 26 = 1 ↔ w.extractLsb' 26 6 = 1 := by
  rw [← opcode_toNat]
  exact BitVec.toNat_inj (y := 1)

theorem targetReg_eq_zero_iff {w : Word} : w.toNat / 2 ^ 16 % 2 ^ 5 = 0 ↔ w.extractLsb' 16 5 = 0 := by
  rw [← slice_toNat]
  exact BitVec.toNat_inj (y := 0)

theorem funct_eq_iff {w : Word} {c : Code} : w.toNat % 2 ^ 6 = c.toNat ↔ w.extractLsb' 0 6 = c := by
  rw [← low_slice_toNat, BitVec.toNat_inj]

/-! ### BFX -/

/-- BFX is the slice, widened (R60). -/
theorem extract_eq_slice (w : Word) (width offset : Nat) (h : width + offset ≤ 32) :
    extract w width offset h = (w.extractLsb' offset width).setWidth 32 := by
  apply BitVec.eq_of_toNat_eq
  rw [extract, BitVec.toNat_ofNat, BitVec.toNat_setWidth, BitVec.extractLsb'_toNat, Nat.one_shiftLeft,
    Nat.and_two_pow_sub_one_eq_mod]

/-- Settles O1: the value is the slice's, below 2^width and so below 2^32, and its bits are the slice's. -/
theorem extractIsShiftAndMask : Obligations.ExtractIsShiftAndMask := by
  intro w width offset h
  have hvalue : (extract w width offset h).toNat = (w.toNat >>> offset) % 2 ^ width := by
    rw [extract_eq_slice, BitVec.toNat_setWidth_of_le (by omega), BitVec.extractLsb'_toNat]
  refine ⟨?_, ?_, fun j => ?_⟩
  · rw [hvalue, Nat.one_shiftLeft, Nat.and_two_pow_sub_one_eq_mod]
  · rw [hvalue]
    exact Nat.mod_lt _ (by positivity)
  · rw [extract_eq_slice, BitVec.getLsbD_setWidth, BitVec.getLsbD_extractLsb']
    by_cases hj : j < width
    · simp [hj, show j < 32 by omega]
    · simp [hj]

/-! ### Records -/

/-- Settles O2: the record is the one DEC fills for the mnemonic, and its fields are slices. -/
theorem recordFieldsAreWordSlices : Obligations.RecordFieldsAreWordSlices := by
  intro cfg w ins h
  rw [eq_instr_of_decode h]
  cases ins.mnem with
  | r m =>
    rw [Mnem.instr, ofRegister_form]
    simp only [registerFields, sourceRegOf_eq, targetRegOf_eq, destRegOf_eq, shiftAmountOf_eq, slice_toNat, and_self]
  | i m =>
    rw [Mnem.instr, ofImmediate_form]
    simp only [immediateFields, sourceRegOf_eq, targetRegOf_eq, immediateOf_eq, slice_toNat, Nat.pow_zero, Nat.div_one, and_self]
  | j m =>
    rw [Mnem.instr, ofJump_form]
    simp only [jumpFields, targetAddressOf_eq, low_slice_toNat, and_self]

/-! ### The dispatch algorithm -/

/-- Settles O3: the tests on numbers are those on slices. -/
theorem decodeFollowsDispatchAlgorithm : Obligations.DecodeFollowsDispatchAlgorithm := by
  rintro cfg w op fn rt rfl rfl rfl
  simp only [ofNat_opcode, ofNat_funct, opcode_eq_zero_iff, opcode_eq_one_iff, funct_eq_iff, targetReg_eq_zero_iff, ne_eq,
    decode, decodeByFunct, decodeBranchPair, decodeByOpcode, opcodeOf_eq, functOf_eq, targetRegOf_eq]
  rfl

/-- Under an accepted configuration the code of FUNCT_MUL selects nothing (R77 (d)). -/
theorem ne_functMul_of_functEntry {cfg : Config} (hc : cfg.wf = true) {fn : Code} {m : RMnem}
    (he : cfg.functEntry fn = some m) : fn ≠ cfg.functMul := by
  obtain ⟨-, -, -, -, hmul, -⟩ := wf_clauses hc
  rintro rfl
  exact Option.some_ne_none m (he.symm.trans hmul)

/-- Function code 0 selects `sll` (R77 (e)). -/
theorem functEntry_zero {cfg : Config} (hc : cfg.wf = true) : cfg.functEntry 0 = some .sll := by
  obtain ⟨-, -, -, -, -, hsll⟩ := wf_clauses hc
  exact hsll

/-- An opcode in `OpcodeMap` is neither 0 nor 1 (R77 (a)). -/
theorem ne_zero_one_of_opcodeEntry {cfg : Config} (hc : cfg.wf = true) {op : Code} {m : OpcodeMnem}
    (he : cfg.opcodeEntry op = some m) : op ≠ 0 ∧ op ≠ 1 := by
  have h := opcodeEntry_ge_two hc he
  exact ⟨by rintro rfl; exact absurd h (by decide), by rintro rfl; exact absurd h (by decide)⟩

/-! ### Errors -/

section
variable (cfg : Config) (w : Word)

theorem decode_eq_unrecognizedOpcode_iff : decode cfg w = .err ⟨.unrecognizedOpcode, w⟩ ↔
    w.extractLsb' 26 6 ≠ 0 ∧ w.extractLsb' 26 6 ≠ 1 ∧ cfg.opcodeEntry (w.extractLsb' 26 6) = none := by
  refine ⟨fun h => ?_, fun ⟨h0, h1, he⟩ => decode_of_opcodeEntry_none h0 h1 he⟩
  obtain ⟨hk, -⟩ | ⟨hk, -⟩ | ⟨-, h⟩ := decode_err_cases h
  · cases hk
  · cases hk
  · exact h

theorem decode_eq_unrecognizedFunctionCode_iff : decode cfg w = .err ⟨.unrecognizedFunctionCode, w⟩ ↔
    w.extractLsb' 26 6 = 0 ∧ w.extractLsb' 0 6 ≠ cfg.functMul ∧ cfg.functEntry (w.extractLsb' 0 6) = none := by
  refine ⟨fun h => ?_, fun ⟨h0, hm, he⟩ => decode_of_functEntry_none h0 hm he⟩
  obtain ⟨hk, -⟩ | ⟨-, h⟩ | ⟨hk, -⟩ := decode_err_cases h
  · cases hk
  · exact h
  · cases hk

theorem decode_eq_invalidMultiplyEncoding_iff : decode cfg w = .err ⟨.invalidMultiplyEncoding, w⟩ ↔
    w.extractLsb' 26 6 = 0 ∧ w.extractLsb' 0 6 = cfg.functMul := by
  refine ⟨fun h => ?_, fun ⟨h0, hm⟩ => decode_of_functMul h0 hm⟩
  obtain ⟨-, h⟩ | ⟨hk, -⟩ | ⟨hk, -⟩ := decode_err_cases h
  · exact h
  · cases hk
  · cases hk

end

/-- Settles O10: the error's reason, and the default map's gaps by running through the 64 opcodes. -/
theorem unrecognizedOpcodeExactly : Obligations.UnrecognizedOpcodeExactly := by
  refine ⟨decode_eq_unrecognizedOpcode_iff, fun w => ?_⟩
  rw [decode_eq_unrecognizedOpcode_iff, ← opcode_toNat]
  generalize w.extractLsb' 26 6 = op
  revert op
  decide

/-- Settles O11: the error's reason, and the default map's gaps by running through the 64 function codes. -/
theorem unrecognizedFunctionCodeExactly : Obligations.UnrecognizedFunctionCodeExactly := by
  refine ⟨decode_eq_unrecognizedFunctionCode_iff, fun w => ?_⟩
  rw [decode_eq_unrecognizedFunctionCode_iff, opcode_eq_zero_iff, ← low_slice_toNat]
  refine and_congr_right fun _ => ?_
  generalize w.extractLsb' 0 6 = fn
  revert fn
  decide

/-- Settles O12: the error's reason; the default FUNCT_MUL is 2. -/
theorem invalidMultiplyEncodingExactly : Obligations.InvalidMultiplyEncodingExactly := by
  refine ⟨decode_eq_invalidMultiplyEncoding_iff, fun w => ?_, by decide⟩
  rw [decode_eq_invalidMultiplyEncoding_iff, opcode_eq_zero_iff]
  exact and_congr_right fun _ => (funct_eq_iff (c := 2)).symm

/-! ### What dispatch reads -/

/-- Settles O13: the branch that answers for one word answers for the other. -/
theorem dontCareBitsDoNotDispatch : Obligations.DontCareBitsDoNotDispatch := by
  intro cfg w w' hop hfunct hrt
  rcases hd : decode cfg w with ins | e
  · obtain ⟨m, h0, hm, he, rfl⟩ | ⟨h1, rfl⟩ | ⟨m, h0, h1, he, rfl⟩ := decode_ok_cases hd
    · obtain ⟨hfn, hz⟩ := hfunct h0
      rw [decode_of_functEntry (hop ▸ h0) (hfn ▸ hm) (hfn ▸ he)]
      simp only [ofRegister_mnem, Mnem.instr_mnem, hz]
    · rw [decode_of_branchPair (hop ▸ h1)]
      simp only [ofImmediate_mnem, Mnem.instr_mnem, ne_eq, hrt h1]
    · rw [decode_of_opcodeEntry (hop ▸ h0) (hop ▸ h1) (hop ▸ he)]
      simp only [Mnem.instr_mnem]
  · obtain ⟨rfl, h0, hm⟩ | ⟨rfl, h0, hm, he⟩ | ⟨rfl, h0, h1, he⟩ := decode_err_cases hd
    · obtain ⟨hfn, -⟩ := hfunct h0
      rw [decode_of_functMul (hop ▸ h0) (hfn ▸ hm)]
    · obtain ⟨hfn, -⟩ := hfunct h0
      rw [decode_of_functEntry_none (hop ▸ h0) (hfn ▸ hm) (hfn ▸ he)]
    · rw [decode_of_opcodeEntry_none (hop ▸ h0) (hop ▸ h1) (hop ▸ he)]

/-! ### Special words -/

/-- A RegisterForm word's fields are those it was built from (R63). -/
theorem registerFields_append (op low : Code) (rs rt rd sh : BitVec 5) :
    registerFields (op ++ rs ++ rt ++ rd ++ sh ++ low) = ⟨rs, rt, rd, sh, op ++ rs ++ rt ++ rd ++ sh ++ low⟩ :=
  registerFields_encodeRegister op ⟨rs, rt, rd, sh, 0⟩ low

/-- Settles O6: an opcode of `OpcodeMap` is tested alone. -/
theorem mulDispatchedByOpcodeAlone : Obligations.MulDispatchedByOpcodeAlone := by
  rintro cfg op hc he rs rt rd sh low w rfl
  have hop := encodeRegister_opcode op ⟨rs, rt, rd, sh, 0⟩ low
  rw [encodeRegister] at hop
  obtain ⟨h0, h1⟩ := ne_zero_one_of_opcodeEntry hc he
  rw [decode_of_opcodeEntry (by rwa [hop]) (by rwa [hop]) (by rwa [hop]), OpcodeMnem.mnem, Mnem.instr, registerFields_append]
  rfl

/-- Settles O4: opcode 1 goes to the pair, and the record keeps rt. -/
theorem opcodeOneTieBreak : Obligations.OpcodeOneTieBreak := by
  rintro cfg rs rt imm w rfl
  let f : ImmediateFields := ⟨rs, rt, imm, 0⟩
  have hd := decode_of_branchPair (cfg := cfg) (encodeImmediate_opcode 1 f)
  rw [encodeImmediate_targetReg, immediateFields_encodeImmediate] at hd
  refine ⟨?_, fun ht => hd.trans (by rw [if_pos ht]; rfl)⟩
  rintro rfl
  exact hd

/-- Settles O5: code 0 selects `sll`, the zero test makes `nop` of it, and a well-formed `nop` is the zero word. -/
theorem zeroWordAloneIsNop : Obligations.ZeroWordAloneIsNop := by
  intro cfg hc
  have hsll : ∀ w : Word, w.extractLsb' 26 6 = 0 → cfg.functEntry (w.extractLsb' 0 6) = some .sll →
      decode cfg w = .ok (.ofRegister (if w = 0 then .nop else .sll) (registerFields w)) := fun w h0 he => by
    simpa using decode_of_functEntry h0 (ne_functMul_of_functEntry hc he) he
  have hzero := functEntry_zero hc
  refine ⟨hsll 0 rfl hzero, fun w hw h0 he => ?_, hsll _ rfl hzero, hsll _ rfl hzero, fun w f h => ?_⟩
  · rw [opcode_eq_zero_iff] at h0
    rw [ofNat_funct] at he
    exact ⟨_, (hsll w h0 he).trans (by rw [if_neg hw]; rfl)⟩
  · obtain ⟨-, hz⟩ := Bool.and_eq_true_iff.mp (wf_of_decode hc h)
    exact (raw_of_decode h).symm.trans (beq_iff_eq.mp hz)

/-- Settles O18: by evaluation of the six words. -/
theorem sampleWordsDecode : Obligations.SampleWordsDecode := by
  unfold Obligations.SampleWordsDecode
  decide

end Sys2Proof
end

section
/-! The opcode table and the accepted configurations (opcode_table.json; 30_encoding.md R72, R73, R77): a row's match under
its mask tests the slices dispatch reads, and the clauses of R77 say of the lists what the rule says of the maps. -/

open Sys2Proof.Slice0

namespace Sys2Proof

/-! ### Masks -/

/-- A value shifted to its place is the slice there. -/
theorem slice_shiftLeft {offset width : Nat} (h : width + offset ≤ 32) (c : BitVec width) :
    (c.setWidth 32 <<< offset).extractLsb' offset width = c := by
  ext i hi
  simp [hi, show offset + i < 32 by omega]

/-- A match under a mask of consecutive bits tests the slice. -/
theorem and_mask_eq_iff {w m : Word} {offset width : Nat} (hm : m = (BitVec.allOnes width).setWidth 32 <<< offset)
    (h : width + offset ≤ 32) {c : BitVec width} :
    w &&& m = c.setWidth 32 <<< offset ↔ w.extractLsb' offset width = c := by
  rw [and_mask w m offset width hm]
  exact ⟨fun he => by rw [← slice_shiftLeft h (w.extractLsb' offset width), he, slice_shiftLeft h], fun he => by rw [he]⟩

/-- A match under a mask of two pieces tests each piece. -/
theorem and_or_eq_iff {w a b v : Word} (hv : v &&& (a ||| b) = v) :
    w &&& (a ||| b) = v ↔ w &&& a = v &&& a ∧ w &&& b = v &&& b := by
  have hpiece (c : Word) (hc : (a ||| b) &&& c = c) (he : w &&& (a ||| b) = v) : w &&& c = v &&& c := by
    rw [← he, BitVec.and_assoc, hc]
  refine ⟨fun he => ⟨hpiece a ?_ he, hpiece b ?_ he⟩, fun ⟨ha, hb⟩ => ?_⟩
  · ext i hi
    simpa [Bool.and_comm] using Or.inl
  · ext i hi
    simpa [Bool.and_comm] using Or.inr
  · rw [and_or_mask, ha, hb, ← and_or_mask, hv]

/-- The mask of a row dispatched by opcode. -/
theorem opcode_mask_iff {w : Word} {op : Code} :
    w &&& (0xFC000000 : Word) = op.setWidth 32 <<< 26 ↔ w.extractLsb' 26 6 = op :=
  and_mask_eq_iff (by decide) (by decide)

/-- The mask of a row dispatched by function code. -/
theorem funct_mask_iff {w : Word} {fn : Code} :
    w &&& 0xFC00003F = fn.setWidth 32 ↔ w.extractLsb' 26 6 = 0 ∧ w.extractLsb' 0 6 = fn := by
  have hv : ∀ fn : Code, fn.setWidth 32 &&& ((0xFC000000 : Word) ||| 0x3F) = fn.setWidth 32 ∧
      fn.setWidth 32 &&& (0xFC000000 : Word) = (0 : Code).setWidth 32 <<< 26 ∧
      fn.setWidth 32 &&& (0x3F : Word) = fn.setWidth 32 <<< 0 := by decide
  obtain ⟨hv, hop, hfn⟩ := hv fn
  rw [show (0xFC00003F : Word) = 0xFC000000 ||| 0x3F from rfl, and_or_eq_iff hv, hop, hfn, opcode_mask_iff,
    and_mask_eq_iff (by decide) (by decide)]

/-- The mask that tests rt for zero. -/
theorem targetReg_mask_iff {w : Word} : w &&& 0x001F0000 = 0 ↔ w.extractLsb' 16 5 = 0 :=
  and_mask_eq_iff (offset := 16) (width := 5) (c := 0) (by decide) (by decide)

/-- The mask of `bltz`: opcode 1 and rt zero. -/
theorem bltz_mask_iff {w : Word} :
    w &&& 0xFC1F0000 = 0x04000000 ↔ w.extractLsb' 26 6 = 1 ∧ w.extractLsb' 16 5 = 0 := by
  rw [show (0xFC1F0000 : Word) = 0xFC000000 ||| 0x001F0000 from rfl, and_or_eq_iff rfl]
  exact and_congr (opcode_mask_iff (op := 1)) targetReg_mask_iff

/-! ### The rows -/

/-- A word decodes to a mnemonic when the mnemonic's instruction of that word is well formed. -/
theorem decode_mnem_iff {cfg : Config} (hc : cfg.wf = true) {w : Word} {m : Mnem} :
    (∃ ins, decode cfg w = .ok ins ∧ ins.mnem = m) ↔ (m.instr w).wf cfg = true := by
  constructor
  · rintro ⟨ins, hd, rfl⟩
    exact eq_instr_of_decode hd ▸ wf_of_decode hc hd
  · intro h
    exact ⟨m.instr w, by simpa using decode_raw_of_wf h, m.instr_mnem w⟩

section
variable {cfg : Config} (hc : cfg.wf = true) {c : Code} {w : Word}
include hc

/-- One function code selects a mnemonic (R77 (c)). -/
theorem functEntry_eq_some_iff {m : RMnem} (he : cfg.functEntry c = some m) {fn : Code} :
    cfg.functEntry fn = some m ↔ fn = c :=
  ⟨fun h => Option.some.inj ((functFor_of_entry hc h).symm.trans (functFor_of_entry hc he)), fun h => h ▸ he⟩

/-- One opcode selects a mnemonic (R77 (a)). -/
theorem opcodeEntry_eq_some_iff {m : OpcodeMnem} (he : cfg.opcodeEntry c = some m) {op : Code} :
    cfg.opcodeEntry op = some m ↔ op = c :=
  ⟨fun h => Option.some.inj ((opcodeFor_of_entry hc h).symm.trans (opcodeFor_of_entry hc he)), fun h => h ▸ he⟩

/-- The words a function code of the map selects, as a match. -/
theorem byFunct_iff_mask {m : RMnem} (he : cfg.functEntry c = some m) :
    (registerFields w).byFunct cfg m = true ↔ w &&& 0xFC00003F = c.setWidth 32 := by
  rw [byFunct_iff, funct_mask_iff]
  constructor
  · rintro ⟨-, h0, -, hm⟩
    exact ⟨h0, (functEntry_eq_some_iff hc he).mp hm⟩
  · rintro ⟨h0, rfl⟩
    exact ⟨registerFields_consistent w, h0, ne_functMul_of_functEntry hc he, he⟩

/-- The words an opcode of the map selects, as a match. -/
theorem byOpcode_iff_mask {m : OpcodeMnem} (he : cfg.opcodeEntry c = some m) :
    byOpcode cfg m w = true ↔ w &&& (0xFC000000 : Word) = c.setWidth 32 <<< 26 := by
  rw [byOpcode_iff, opcode_mask_iff]
  constructor
  · rintro ⟨-, -, hm⟩
    exact (opcodeEntry_eq_some_iff hc he).mp hm
  · rintro rfl
    obtain ⟨h0, h1⟩ := ne_zero_one_of_opcodeEntry hc he
    exact ⟨h0, h1, he⟩

/-- A row dispatched by function code. -/
theorem functRow_iff {m : RMnem} (he : cfg.functEntry c = some m) :
    (∃ ins, decode cfg w = .ok ins ∧ ins.mnem = .r m) ↔ (w &&& 0xFC00003F = c.setWidth 32 ∧ rowCondition (.r m) w) := by
  rw [decode_mnem_iff hc, wf_instr_of_mem_functRange cfg w (functEntry_mem hc he), Bool.and_eq_true,
    byFunct_iff_mask hc he]
  simp [rowCondition, imp_iff_not_or]

/-- A row dispatched by opcode. -/
theorem opcodeRow_iff {m : OpcodeMnem} (he : cfg.opcodeEntry c = some m) :
    (∃ ins, decode cfg w = .ok ins ∧ ins.mnem = m.mnem) ↔
      (w &&& (0xFC000000 : Word) = c.setWidth 32 <<< 26 ∧ rowCondition m.mnem w) := by
  have hm := opcodeEntry_mem hc he
  have hne : ∀ m ∈ opcodeRange, m.mnem ≠ .r .sll ∧ m.mnem ≠ .i .bgez := by decide
  obtain ⟨hsll, hbgez⟩ := hne m hm
  have hcond : rowCondition m.mnem w := ⟨fun h => absurd h hsll, fun h => absurd h hbgez⟩
  rw [decode_mnem_iff hc, wf_instr_of_mem_opcodeRange cfg w hm, byOpcode_iff_mask hc he, and_iff_left hcond]

/-- The row of `nop`. -/
theorem nopRow_iff :
    (∃ ins, decode cfg w = .ok ins ∧ ins.mnem = .r .nop) ↔ (w &&& 0xFFFFFFFF = 0 ∧ rowCondition (.r .nop) w) := by
  have hmask : w &&& 0xFFFFFFFF = w := BitVec.and_allOnes
  have hcond : rowCondition (.r .nop) w := ⟨nofun, nofun⟩
  rw [decode_mnem_iff hc, wf_instr_nop_iff, hmask, and_iff_left hcond, and_iff_right_iff_imp]
  rintro rfl
  exact (byFunct_iff_mask hc (functEntry_zero hc)).mpr rfl

/-- The rows of the opcode-1 pair. -/
theorem bltzRow_iff :
    (∃ ins, decode cfg w = .ok ins ∧ ins.mnem = .i .bltz) ↔
      (w &&& 0xFC1F0000 = 0x04000000 ∧ rowCondition (.i .bltz) w) := by
  have hcond : rowCondition (.i .bltz) w := ⟨nofun, nofun⟩
  rw [decode_mnem_iff hc, wf_instr_bltz_iff, bltz_mask_iff, and_iff_left hcond]

theorem bgezRow_iff :
    (∃ ins, decode cfg w = .ok ins ∧ ins.mnem = .i .bgez) ↔
      (w &&& 0xFC000000 = 0x04000000 ∧ rowCondition (.i .bgez) w) := by
  have hmask : w &&& 0xFC000000 = 0x04000000 ↔ w.extractLsb' 26 6 = 1 := opcode_mask_iff (op := 1)
  have hcond : rowCondition (.i .bgez) w ↔ w.extractLsb' 16 5 ≠ 0 := by
    simp only [rowCondition, reduceCtorEq, false_implies, true_and, forall_const, ne_eq, targetReg_mask_iff]
  rw [decode_mnem_iff hc, wf_instr_bgez_iff, hmask, hcond]

end

/-- The table's rows are the entries of the default maps written as matches, `nop` and the opcode-1 pair. -/
theorem tableRows_cases : ∀ row ∈ tableRows,
    (∃ e ∈ Config.default.functMap, row = (.r e.2, e.1.setWidth 32, 0xFC00003F)) ∨
    (∃ e ∈ Config.default.opcodeMap, row = (e.2.mnem, e.1.setWidth 32 <<< 26, 0xFC000000)) ∨
    row = (.r .nop, 0x00000000, 0xFFFFFFFF) ∨ row = (.i .bltz, 0x04000000, 0xFC1F0000) ∨
    row = (.i .bgez, 0x04000000, 0xFC000000) := by decide

/-- Settles O17: each row is that of a map entry, of `nop`, or of the opcode-1 pair, whose words are known under every
accepted configuration. -/
theorem defaultDecodeMatchesOpcodeTable : Obligations.DefaultDecodeMatchesOpcodeTable := by
  have hc : Config.default.wf = true := by decide
  intro row hrow w
  obtain ⟨⟨c, m⟩, he, rfl⟩ | ⟨⟨c, m⟩, he, rfl⟩ | rfl | rfl | rfl := tableRows_cases row hrow
  · exact functRow_iff hc (lookup_of_mem (by decide) he)
  · exact opcodeRow_iff hc (lookup_of_mem (by decide) he)
  · exact nopRow_iff hc
  · exact bltzRow_iff hc
  · exact bgezRow_iff hc

/-! ### Maps as lists -/

section
variable {α β : Type} [DecidableEq α] {l : List (α × β)} (hk : (l.map Prod.fst).Nodup)
include hk

/-- In a list with no key twice, a key looks up exactly its entries. -/
theorem lookup_eq_some_iff_mem {a : α} {b : β} : l.lookup a = some b ↔ (a, b) ∈ l :=
  ⟨mem_of_lookup, lookup_of_mem hk⟩

/-- No value is listed twice when the map is injective. -/
theorem nodup_values_iff : (l.map Prod.snd).Nodup ↔
    ∀ a a' b, l.lookup a = some b → l.lookup a' = some b → a = a' := by
  simp only [lookup_eq_some_iff_mem hk, List.nodup_map_iff_inj_on (List.Nodup.of_map _ hk)]
  constructor
  · intro h a a' b ha ha'
    exact congrArg Prod.fst (h _ ha _ ha' rfl)
  · rintro h ⟨a, b⟩ ha ⟨a', b'⟩ ha' hb
    obtain rfl : b = b' := hb
    rw [h a a' b ha ha']

/-- The listed values are those of `r` when the map's range is `r`. -/
theorem values_eq_iff {r : List β} : ((∀ e ∈ l, e.2 ∈ r) ∧ ∀ m ∈ r, m ∈ l.map Prod.snd) ↔
    ∀ m, (∃ a, l.lookup a = some m) ↔ m ∈ r := by
  have hmem (m : β) : (∃ a, l.lookup a = some m) ↔ m ∈ l.map Prod.snd := by
    simp [lookup_eq_some_iff_mem hk]
  simp only [hmem, iff_def, forall_and, List.forall_mem_map]

end

/-- The domain lies in 2..63 when neither 0 nor 1 is in it. -/
theorem keys_ge_two_iff {β : Type} {l : List (Code × β)} :
    (∀ e ∈ l, 2 ≤ e.1.toNat) ↔ l.lookup 0 = none ∧ l.lookup 1 = none := by
  have hcode : ∀ c : Code, 2 ≤ c.toNat ↔ (0 != c) = true ∧ (1 != c) = true := by decide
  simp only [List.lookup_eq_none_iff, hcode, ← forall_and]

/-! ### The ranges of R77 -/

theorem mem_opcodeRange_iff {m : OpcodeMnem} : m ∈ opcodeRange ↔
    m = .mul ∨ m = .jump .j ∨ m = .jump .jal ∨ ∃ im, m = .imm im ∧ im ≠ .bltz ∧ im ≠ .bgez := by
  cases m with
  | imm m => cases m <;> simp [opcodeRange]
  | jump m => cases m <;> simp [opcodeRange]
  | mul => simp [opcodeRange]

theorem mem_functRange_iff {m : RMnem} : m ∈ functRange ↔ m ≠ .mul ∧ m ≠ .nop := by
  cases m <;> decide

/-- Settles O19: clause by clause, the map's condition is the list's. -/
theorem acceptedConfigurationsAreRule77s : Obligations.AcceptedConfigurationsAreRule77s := by
  intro cfg hk hk'
  simp only [Config.wf, Config.keysOk, Config.opcodeDomainOk, Config.opcodeRangeOk, Config.functMapOk, Config.functMulOk,
    Config.sllOk, Bool.and_eq_true, decide_eq_true_eq, List.all_eq_true, hk, hk', keys_ge_two_iff, and_assoc, true_and]
  simp only [Config.opcodeEntry, Config.functEntry, ← mem_opcodeRange_iff, ← mem_functRange_iff, ← values_eq_iff hk,
    ← values_eq_iff hk', ← nodup_values_iff hk, ← nodup_values_iff hk', and_assoc]

end Sys2Proof
end

section
/-! The formatter and the steps (30_encoding.md R66, R77, R90, R94; 60_exceptions.md R268): a line's fixed-width fields, the
exact products, and the outcomes a step can have. -/

open Sys2Proof Sys2Proof.Machine Sys2Proof.Slice0

namespace Sys2Proof.Machine

/-! ### Lines -/

/-- `hex8` loses nothing: its digits read back (R12). -/
theorem hex8_injective : Function.Injective hex8 := by
  intro v v' h
  obtain ⟨d, hd, -, -, hvalue⟩ := hexadecimalSpelling v
  obtain ⟨d', hd', -, -, hvalue'⟩ := hexadecimalSpelling v'
  have hdd : '0' :: 'x' :: d = '0' :: 'x' :: d' := hd.symm.trans (h.trans hd')
  obtain rfl : d = d' := by simpa using hdd
  exact BitVec.eq_of_toNat_eq (hvalue.symm.trans hvalue')

/-- A line's first two fields stand at fixed places: equal lines have equal addresses and raw words (R90). -/
theorem lineText_inj {cfg : Config} {a a' raw raw' : Word} {m m' : Mnem} {ops ops' : List Text}
    (h : lineText cfg a raw m ops = lineText cfg a' raw' m' ops') : a = a' ∧ raw = raw' := by
  simp only [lineText, List.append_assoc] at h
  have haddress := List.append_cancel_left h
  obtain ⟨ha, hrest⟩ := List.append_inj haddress rfl
  obtain ⟨hraw, -⟩ := List.append_inj (List.append_cancel_left hrest) rfl
  exact ⟨hex8_injective ha, hex8_injective hraw⟩

/-- A line comes from an instruction of the word. -/
theorem transaction_eq_line {cfg : Config} {a w : Word} {l : Text} (h : transaction cfg a w = .line l) :
    ∃ ins, decode cfg w = .ok ins ∧ l = format cfg a ins.form := by
  rcases hd : decode cfg w with ins | e
  · rw [transaction_of_ok hd] at h
    exact ⟨ins, rfl, (Result.line.inj h).symm⟩
  · rw [transaction_of_err hd] at h
    cases h

/-- Settles O36: the line holds the address and the record's raw word, which is the word decoded. -/
theorem lineDeterminesTransaction : Obligations.LineDeterminesTransaction := by
  intro cfg a a' w w' l h h'
  obtain ⟨ins, hd, rfl⟩ := transaction_eq_line h
  obtain ⟨ins', hd', hl⟩ := transaction_eq_line h'
  obtain ⟨ha, hraw⟩ := lineText_inj hl
  exact ⟨ha, (raw_of_decode hd).symm.trans (hraw.trans (raw_of_decode hd'))⟩

/-- Settles O31: each meaning prints FMT's line. -/
theorem meaningsAgreeWithFormatter : Obligations.MeaningsAgreeWithFormatter := exec_eq_format

/-! ### Scaling -/

/-- A field of at most 30 bits times 4 does not wrap (R66). -/
theorem setWidth_mul_four_toNat {n : Nat} (hn : n ≤ 30) (x : BitVec n) : (x.setWidth 32 * 4).toNat = x.toNat * 4 := by
  have hx : x.toNat < 2 ^ 30 := lt_of_lt_of_le x.isLt (Nat.pow_le_pow_right (by decide) hn)
  rw [BitVec.toNat_mul, BitVec.toNat_setWidth_of_le (by omega), show (4 : Word).toNat = 4 from rfl,
    Nat.mod_eq_of_lt (by omega)]

/-- Settles O37: the widest field times 4 stays below 2^32. -/
theorem scalingNeverWraps : Obligations.ScalingNeverWraps := by
  refine ⟨fun imm => ?_, fun t => ?_⟩
  · have hvalue : (scaledImmediate imm).toNat = imm.toNat * 4 := setWidth_mul_four_toNat (by decide) imm
    exact ⟨hvalue, by omega⟩
  · have hvalue : (scaledTarget t).toNat = t.toNat * 4 := setWidth_mul_four_toNat (by decide) t
    exact ⟨hvalue, by omega⟩

/-! ### Outcomes -/

/-- Under an accepted configuration a step goes on or finds the environment stopped (R32). -/
theorem step_outcome {s : State} (hwf : s.cfg.wf = true) : (∃ t, step s = .next t) ∨ step s = .fault .stopped := by
  rcases running_or_stopped s with hrun | hstop
  · rcases hw : s.nextWord with - | w
    · exact .inl ⟨_, step_of_end hwf hrun hw⟩
    · exact .inl ⟨_, step_eq_deliver hwf hrun hw⟩
  · exact .inr (step_of_stopped hwf hstop)

/-- Settles O46: a step's outcomes are a next state, the stuck state and the refusal of its configuration; an instruction
emits its line. -/
theorem formatterMismatchNeverArises : Obligations.FormatterMismatchNeverArises := by
  refine ⟨fun s hwf => ?_, fun s => ?_, fun ins s => ?_⟩
  · obtain ⟨t, ht⟩ | hstuck := step_outcome hwf
    · rw [ht, safeOutcome]
    · rw [hstuck, safeOutcome]
  · cases hwf : s.cfg.wf with
    | false => rw [step_of_illFormed hwf]; nofun
    | true =>
      obtain ⟨t, ht⟩ | hstuck := step_outcome hwf
      · rw [ht]; nofun
      · rw [hstuck]; nofun
  · rw [exec_eq_format]
    exact ⟨nofun, nofun⟩

/-- Settles O20: the configuration is tested before anything else; the five variants by evaluation. -/
theorem illFormedConfigurationRefused : Obligations.IllFormedConfigurationRefused := by
  refine ⟨fun s => step_of_illFormed, fun s hwf r => ?_, by decide, by decide, by decide, by decide, by decide⟩
  obtain ⟨t, ht⟩ | hstuck := step_outcome hwf
  · rw [ht]; nofun
  · rw [hstuck]; nofun

end Sys2Proof.Machine
end

section
/-! The function-dispatched RegisterForm words and the lines they print (40_register_ops.md R120 to R128). -/

open Sys2Proof Sys2Proof.Machine Sys2Proof.Slice0

namespace Sys2Proof.Machine

/-! ### Dispatch on the function code -/

/-- Settles O7: the word's slices are the fields it was built from, and the three clauses are the three outcomes of opcode 0;
R77 (d) keeps FUNCT_MUL out of the first. -/
theorem functionDispatchRecord : Obligations.FunctionDispatchRecord := by
  rintro cfg fn rs rt rd sh w hc hw
  have hop : w.extractLsb' 26 6 = 0 := hw ▸ encodeRegister_opcode 0 ⟨rs, rt, rd, sh, 0⟩ fn
  have hfn : w.extractLsb' 0 6 = fn := hw ▸ encodeRegister_low 0 ⟨rs, rt, rd, sh, 0⟩ fn
  have hfields : registerFields w = ⟨rs, rt, rd, sh, w⟩ := hw ▸ registerFields_append 0 fn rs rt rd sh
  subst hfn
  refine ⟨fun m he => ?_, decode_of_functMul hop, decode_of_functEntry_none hop⟩
  rw [decode_of_functEntry hop (ne_functMul_of_functEntry hc he) he, hfields, Instruction.instr]

/-! ### Printed lines -/

/-- Each meaning's next state, with the line written out: the mnemonic's spelling, then the operands of its class (R90, R93). -/
theorem exec_eq_afterLine (ins : Instr) (s : State) :
    exec ins s = .next (afterLine s ins.raw (spell ins.mnem ++ operandsText (operandsOf ins.form))) := by
  have hline : format s.cfg s.address ins.form =
      lineWith s ins.raw (spell ins.mnem ++ operandsText (operandsOf ins.form)) := by
    rw [format, lineText, lineWith, ← List.append_assoc _ (spell ins.mnem)]
    rfl
  rw [exec_eq_format, hline]
  rfl

/-- Three operands (R90). -/
theorem operandsText_three (a b c : Text) :
    operandsText [a, b, c] = " ".toList ++ a ++ ", ".toList ++ b ++ ", ".toList ++ c := by
  simp [operandsText, List.intercalate]

/-- Settles O21: the six mnemonics share one class of operands. -/
theorem standardRegisterOpsPrint : Obligations.StandardRegisterOpsPrint := by
  intro f s ops hops
  obtain rfl : ops = operandsText (standardRegisterOps f) := hops.trans (operandsText_three ..).symm
  exact ⟨exec_eq_afterLine (.add f) s, exec_eq_afterLine (.addu f) s, exec_eq_afterLine (.and f) s,
    exec_eq_afterLine (.mul f) s, exec_eq_afterLine (.slt f) s, exec_eq_afterLine (.sub f) s⟩

/-- Settles O22: the two shifts share one class of operands. -/
theorem shiftsPrint : Obligations.ShiftsPrint := by
  intro f s ops hops
  obtain rfl : ops = operandsText (shiftOps f) := hops.trans (operandsText_three ..).symm
  exact ⟨exec_eq_afterLine (.sll f) s, exec_eq_afterLine (.sra f) s⟩

end Sys2Proof.Machine
end

section
/-! The lines the register-form control and system words print (41_register_control.md R150 to R153). -/

open Sys2Proof Sys2Proof.Machine Sys2Proof.Slice0

namespace Sys2Proof.Machine

/-- One operand (R90). -/
theorem operandsText_one (a : Text) : operandsText [a] = " ".toList ++ a := by
  simp [operandsText, List.intercalate]

/-- Two operands (R90). -/
theorem operandsText_two (a b : Text) : operandsText [a, b] = " ".toList ++ a ++ ", ".toList ++ b := by
  simp [operandsText, List.intercalate]

/-- Settles O23: `jr` prints its class's one operand, `jalr` its class's two. -/
theorem jumpRegistersPrint : Obligations.JumpRegistersPrint := by
  intro f s
  have hjr : "jr ".toList ++ reg f.sourceReg = "jr".toList ++ operandsText (jumpRegisterOps f) := by
    rw [jumpRegisterOps, operandsText_one]
    rfl
  have hjalr : "jalr ".toList ++ reg f.destReg ++ ", ".toList ++ reg f.sourceReg =
      "jalr".toList ++ operandsText (jumpLinkRegisterOps f) := by
    rw [jumpLinkRegisterOps, operandsText_two]
    rfl
  rw [hjr, hjalr]
  exact ⟨exec_eq_afterLine (.jr f) s, exec_eq_afterLine (.jalr f) s⟩

/-- Settles O24: a class with no operands adds no text, so no space, to the mnemonic. -/
theorem noOperandInstructionsPrint : Obligations.NoOperandInstructionsPrint :=
  fun f s => ⟨exec_eq_afterLine (.syscall f) s, exec_eq_afterLine (.nop f) s⟩

end Sys2Proof.Machine
end

section
/-! The immediate arithmetic, logical and load-upper words and the lines they print (42_immediate_ops.md R170 to R175). -/

open Sys2Proof Sys2Proof.Machine Sys2Proof.Slice0

namespace Sys2Proof.Machine

/-- An ImmediateForm word's fields are those it was built from (R63). -/
theorem immediateFields_append (op : Code) (rs rt : RegNum) (imm : BitVec 16) :
    immediateFields (op ++ rs ++ rt ++ imm) = ⟨rs, rt, imm, op ++ rs ++ rt ++ imm⟩ :=
  immediateFields_encodeImmediate op ⟨rs, rt, imm, 0⟩

/-- Settles O8: R77 (a) keeps a mapped opcode off 0 and 1, so DEC looks it up and tests nothing else. -/
theorem immediateDispatchRecord : Obligations.ImmediateDispatchRecord := by
  rintro cfg op m hc he rs rt imm w hw
  have hop : w.extractLsb' 26 6 = op := hw ▸ encodeImmediate_opcode op ⟨rs, rt, imm, 0⟩
  have hfields : immediateFields w = ⟨rs, rt, imm, w⟩ := hw ▸ immediateFields_append op rs rt imm
  subst hop
  obtain ⟨h0, h1⟩ := ne_zero_one_of_opcodeEntry hc he
  rw [decode_of_opcodeEntry h0 h1 he, OpcodeMnem.mnem, Mnem.instr, hfields, Instruction.instr]

/-- Settles O25: the four mnemonics share one class of operands. -/
theorem immediateArithmeticPrints : Obligations.ImmediateArithmeticPrints := by
  intro f s ops hops
  obtain rfl : ops = operandsText (immediateOps f) := hops.trans (operandsText_three ..).symm
  exact ⟨exec_eq_afterLine (.addi f) s, exec_eq_afterLine (.addiu f) s, exec_eq_afterLine (.andi f) s,
    exec_eq_afterLine (.ori f) s⟩

/-- Settles O26: the operands of `lui`'s class are rt and the immediate. -/
theorem loadUpperPrints : Obligations.LoadUpperPrints := by
  intro f s
  have hlui : "lui ".toList ++ reg f.targetReg ++ ", ".toList ++ dec f.immediate.toNat =
      "lui".toList ++ operandsText (loadUpperOps f) := by
    rw [loadUpperOps, operandsText_two]
    rfl
  rw [hlui]
  exact exec_eq_afterLine (.lui f) s

end Sys2Proof.Machine
end

section
/-! The lines the load and store words print (43_load_store.md R190 to R195). -/

open Sys2Proof Sys2Proof.Machine Sys2Proof.Slice0

namespace Sys2Proof.Machine

/-- The product is computed in Nat: it never wraps (R195). -/
theorem scaledImmediate_toNat (imm : BitVec 16) : (scaledImmediate imm).toNat = 4 * imm.toNat :=
  (setWidth_mul_four_toNat (by decide) imm).trans (Nat.mul_comm ..)

/-- Settles O27: the four mnemonics share one class of operands, rt and the scaled immediate before rs in parentheses. -/
theorem loadsAndStoresPrint : Obligations.LoadsAndStoresPrint := by
  intro f s ops hops
  have hclass : ops = operandsText (loadStoreOps f) := by
    rw [hops, loadStoreOps, operandsText_two, scaledImmediate_toNat]
    simp only [List.append_assoc]
    rfl
  subst hclass
  exact ⟨exec_eq_afterLine (.lb f) s, exec_eq_afterLine (.lw f) s, exec_eq_afterLine (.sb f) s,
    exec_eq_afterLine (.sw f) s⟩

end Sys2Proof.Machine
end

section
/-! The lines the branch words print (44_branch.md R210 to R217). -/

open Sys2Proof Sys2Proof.Machine Sys2Proof.Slice0

namespace Sys2Proof.Machine

/-- Settles O28: both mnemonics share one class of operands, rs and rt before the scaled immediate; no target is formed (R217). -/
theorem twoRegisterBranchesPrint : Obligations.TwoRegisterBranchesPrint := by
  intro f s ops hops
  rw [← scaledImmediate_toNat] at hops
  obtain rfl : ops = operandsText (twoRegisterBranchOps f) := hops.trans (operandsText_three ..).symm
  exact ⟨exec_eq_afterLine (.beq f) s, exec_eq_afterLine (.bne f) s⟩

/-- Settles O29: the four mnemonics share one class of operands, rs before the scaled immediate; rt is not among them. -/
theorem oneRegisterBranchesPrint : Obligations.OneRegisterBranchesPrint := by
  intro f s ops hops
  rw [← scaledImmediate_toNat] at hops
  obtain rfl : ops = operandsText (oneRegisterBranchOps f) := hops.trans (operandsText_two ..).symm
  exact ⟨exec_eq_afterLine (.blez f) s, exec_eq_afterLine (.bgtz f) s, exec_eq_afterLine (.bltz f) s,
    exec_eq_afterLine (.bgez f) s⟩

end Sys2Proof.Machine
end

section
/-! The jump words and the lines they print (45_jump.md R240 to R242). -/

open Sys2Proof Sys2Proof.Machine Sys2Proof.Slice0

namespace Sys2Proof.Machine

/-- Settles O9: R77 (a) keeps a mapped opcode off 0 and 1, so DEC looks it up and tests nothing else; the table's field is
read back as it stands. -/
theorem jumpDispatchRecord : Obligations.JumpDispatchRecord := by
  rintro cfg op m hc he t w hw
  have hop : w.extractLsb' 26 6 = op := hw ▸ encodeJump_opcode op ⟨t, 0⟩
  have hfields : jumpFields w = ⟨t, w⟩ := hw ▸ jumpFields_encodeJump op ⟨t, 0⟩
  subst hop
  obtain ⟨h0, h1⟩ := ne_zero_one_of_opcodeEntry hc he
  rw [decode_of_opcodeEntry h0 h1 he, OpcodeMnem.mnem, Mnem.instr, hfields, Instruction.instr]

/-- The scaled target is the product of the field alone: nothing is merged in, and it never wraps (R66, R240). -/
theorem scaledTarget_eq_ofNat (t : BitVec 26) : scaledTarget t = BitVec.ofNat 32 (4 * t.toNat) := by
  have hvalue : (scaledTarget t).toNat = t.toNat * 4 := setWidth_mul_four_toNat (by decide) t
  rw [Nat.mul_comm, ← hvalue, BitVec.ofNat_toNat, BitVec.setWidth_eq]

/-- Settles O30: both mnemonics share one class of operands, the scaled target alone. -/
theorem jumpsPrint : Obligations.JumpsPrint := by
  intro f s ops hops
  rw [← scaledTarget_eq_ofNat] at hops
  obtain rfl : ops = operandsText (jumpOps f) := hops.trans (operandsText_one ..).symm
  exact ⟨exec_eq_afterLine (.j f) s, exec_eq_afterLine (.jal f) s⟩

end Sys2Proof.Machine
end

section
/-! Decode errors: what one says of its word, and what the environment does with it (60_exceptions.md R260 to R270). -/

open Sys2Proof Sys2Proof.Machine Sys2Proof.Slice0

namespace Sys2Proof.Machine

/-! ### The error -/

/-- Settles O14: each place of R70 that gives an error gives its own kind, and its tests on slices are tests on numbers. -/
theorem decodeErrorCarriesWord : Obligations.DecodeErrorCarriesWord := by
  intro cfg w e h
  simp only [ne_eq, opcode_eq_zero_iff, opcode_eq_one_iff, funct_eq_iff]
  obtain ⟨rfl, h0, hm⟩ | ⟨rfl, h0, hm, -⟩ | ⟨rfl, h0, h1, -⟩ := decode_err_cases h
  · exact ⟨rfl, .inr (.inr ⟨rfl, rfl, h0, hm⟩)⟩
  · exact ⟨rfl, .inr (.inl ⟨rfl, rfl, h0, hm⟩)⟩
  · exact ⟨rfl, .inl ⟨rfl, rfl, h0, h1⟩⟩

/-! ### Taking the error -/

/-- Under `abort` an error stops the run (R270). -/
theorem takeError_status_of_abort (e : DecodeError) {s : State} (h : s.cfg.onError = .abort) :
    (s.takeError e).status = .stopped := by
  rw [takeError_status, if_pos h]

/-- Under `skip` an error is reported and its word counted, nothing else (R270, D16). -/
theorem takeError_of_skip (e : DecodeError) {s : State} (h : s.cfg.onError = .skip) :
    s.takeError e = { s with diag := s.diag ++ [(e.kind, e.word)], i := s.i + 1 } := by
  simp [State.takeError, h]

/-- The word after a failing one gets the next address (R30, D16). -/
theorem takeError_address (e : DecodeError) (s : State) : (s.takeError e).address = s.address + 4 :=
  addressAt_succ s.cfg.base s.i

/-- A step on a word that fails to decode takes the error. -/
theorem step_eq_takeError {s : State} {w : Word} {e : DecodeError} (hwf : s.cfg.wf = true) (hrun : s.status = .running)
    (hw : s.nextWord = some w) (hd : decode s.cfg w = .err e) : step s = .next (s.takeError e) :=
  (step_of_word hwf hrun hw).trans (present_of_err hd)

/-- Settles O42: the step takes the error, which carries the word; the policy decides whether the run goes on. -/
theorem decodeErrorIsTaken : Obligations.DecodeErrorIsTaken := by
  refine ⟨rfl, fun s w e hwf hrun hw hd => ?_⟩
  have hstep := step_eq_takeError hwf hrun hw hd
  obtain rfl := word_of_decode_err hd
  exact ⟨transaction_of_err hd,
    fun habort => ⟨_, hstep, takeError_status_of_abort e habort, takeError_out .., takeError_diag .., takeError_cfg ..,
      takeError_input ..⟩,
    fun hskip => ⟨_, hstep, takeError_of_skip e hskip, takeError_address e s⟩⟩

end Sys2Proof.Machine
end
